-- ==== Sys2Proof/Word.lean ====
section
/-! DEFINITION. The widths of the machine's data: bytes, quadwords and the container of a vector register. -/

namespace Sys2Proof

/-- A byte of memory or of an instruction (20_memory.md R55). -/
abbrev Byte := BitVec 8

/-- A quadword: an MMX, opmask or general-purpose register, an address, a lane (00_scope.md R12). -/
abbrev Quad := BitVec 64

/-- The container of one vector register or of one operand: 512 bits, the largest MAXVL (00_scope.md R6). -/
abbrev Vec := BitVec 512

end Sys2Proof
end

