-- ==== Sys2Proof/Config.lean ====
section
/-! DEFINITION. What a processor fixes (MAXVL, the CPUID feature flags, the linear-address width), and the free values. -/

namespace Sys2Proof

/-- The values of `MAXVL`, the width of a full vector register (00_scope.md R6). -/
inductive MaxVl where
  | v128
  | v256
  | v512
  deriving DecidableEq, Repr

/-- `MAXVL` in bits. -/
def MaxVl.bits : MaxVl → Nat
  | .v128 => 128
  | .v256 => 256
  | .v512 => 512

/-- The implemented widths of a linear address (20_memory.md R55). -/
inductive LinearWidth where
  | w48
  | w57
  deriving DecidableEq, Repr

/-- The implemented width in bits. -/
def LinearWidth.bits : LinearWidth → Nat
  | .w48 => 48
  | .w57 => 57

/-- The parameters of the processor at hand (00_scope.md R6, R8; 20_memory.md R55). They are a field of the state, so that a
claim about every state is a claim about every processor; no step changes them (70_reset_and_hazards.md R221). -/
structure Config where
  /-- MAXVL, 00_scope.md R6 -/
  maxvl : MaxVl
  /-- CPUID flags, 00_scope.md R8 -/
  sse2 : Bool
  avx : Bool
  avx2 : Bool
  avx512f : Bool
  avx512vl : Bool
  /-- the implemented linear-address width, 20_memory.md R55 -/
  linearWidth : LinearWidth
  deriving DecidableEq, Repr

/-- The constraints R6 and R8 put on the parameters: MAXVL is 512 with AVX512F, at least 256 with AVX and otherwise 128, and each
flag implies the one below it. -/
def Config.consistent (c : Config) : Bool :=
  (!c.avx512f || c.maxvl == .v512) && (!c.avx || 256 ≤ c.maxvl.bits) && (c.avx || c.maxvl == .v128) &&
  (!c.avx512vl || c.avx512f) && (!c.avx512f || c.avx2) && (!c.avx2 || c.avx) && (!c.avx || c.sse2)

/-- DESIGN CHOICE (log 10), safe: the error code of a page fault, uninterpreted (60_exceptions.md R191, 93 U22), as a free value
of the faulting instruction's address, the operand's address and its size in bytes. -/
opaque Config.pageFaultCode : Quad → Quad → Nat → BitVec 32

/-- DESIGN CHOICE (log 10), safe: the linear address a page fault reports in CR2 (60_exceptions.md R191, 93 U22), as a free
value of the faulting instruction's address, the operand's address and its size in bytes. -/
opaque Config.pageFaultAddress : Quad → Quad → Nat → Quad

end Sys2Proof
end

