-- ==== Sys2Proof/Syntax.lean ====
section
/-! DEFINITION. The seven forms of PMULUDQ and VPMULUDQ as syntax: one constructor per row of spec/opcode_table.json. A term keeps
every field of its encoding, stored as the value used (an inverted field is held uninverted), so that its bytes, its length and
its operands are all determined by it. -/

namespace Sys2Proof

/-- A REX prefix's four bits (30_encoding.md R73, R76). -/
structure Rex where
  w : Bool
  r : Bool
  x : Bool
  b : Bool
  deriving DecidableEq, Repr

/-- A VEX prefix in its two spellings (30_encoding.md R78). The two-byte one has W, X and B zero. -/
inductive Vex where
  | two (r : Bool) (vvvv : BitVec 4)
  | three (w r x b : Bool) (vvvv : BitVec 4)
  deriving DecidableEq, Repr

/-- The free fields of an EVEX prefix (30_encoding.md R80, R84): `r'` and `v'` are bit 4 of the reg and vvvv numbers. -/
structure Evex where
  r : Bool
  x : Bool
  b : Bool
  r' : Bool
  vvvv : BitVec 4
  v' : Bool
  /-- EVEX.z: zeroing-masking -/
  z : Bool
  /-- EVEX.b: broadcast of a 64-bit memory element -/
  bcst : Bool
  /-- EVEX.aaa: the writemask register, 0 for none -/
  aaa : BitVec 3
  deriving DecidableEq, Repr

/-- The displacement bytes that follow ModRM or SIB (30_encoding.md R73, R90), unscaled. -/
inductive Disp where
  | none
  | disp8 (d : BitVec 8)
  | disp32 (d : BitVec 32)
  deriving DecidableEq, Repr

/-- A memory operand as ModRM and SIB spell it (30_encoding.md R86). -/
inductive MemOperand where
  /-- case (a): a base register, no SIB byte -/
  | base (rm : BitVec 3) (disp : Disp)
  /-- case (b): `mod = 0`, `rm = 5`, relative to the next instruction -/
  | ripRel (disp : BitVec 32)
  /-- case (c): a SIB byte with a base register -/
  | sib (scale : BitVec 2) (index base : BitVec 3) (disp : Disp)
  /-- case (c) with `mod = 0` and `base = 5`: no base register, a 32-bit displacement -/
  | sibNoBase (scale : BitVec 2) (index : BitVec 3) (disp : BitVec 32)
  deriving DecidableEq, Repr

/-- The ModRM:r/m operand: a register field, or memory (30_encoding.md R74). -/
inductive Rm where
  | reg (rm : BitVec 3)
  | mem (m : MemOperand)
  deriving DecidableEq, Repr

/-- The instructions: one constructor per row of the opcode table (30_encoding.md R70). `reg` is ModRM.reg, `rm` the
ModRM:r/m operand. -/
inductive Instr where
  /-- form 1, `PMULUDQ mm1, mm2/m64` -/
  | pmuludqMm (rex : Option Rex) (reg : BitVec 3) (rm : Rm)
  /-- form 2, `PMULUDQ xmm1, xmm2/m128` -/
  | pmuludqXmm (rex : Option Rex) (reg : BitVec 3) (rm : Rm)
  /-- form 3, `VPMULUDQ xmm1, xmm2, xmm3/m128` -/
  | vpmuludqVexXmm (vex : Vex) (reg : BitVec 3) (rm : Rm)
  /-- form 4, `VPMULUDQ ymm1, ymm2, ymm3/m256` -/
  | vpmuludqVexYmm (vex : Vex) (reg : BitVec 3) (rm : Rm)
  /-- form 5, `VPMULUDQ xmm1, xmm2, xmm3/m128/m64bcst` under a writemask -/
  | vpmuludqEvexXmm (evex : Evex) (reg : BitVec 3) (rm : Rm)
  /-- form 6, `VPMULUDQ ymm1, ymm2, ymm3/m256/m64bcst` under a writemask -/
  | vpmuludqEvexYmm (evex : Evex) (reg : BitVec 3) (rm : Rm)
  /-- form 7, `VPMULUDQ zmm1, zmm2, zmm3/m512/m64bcst` under a writemask -/
  | vpmuludqEvexZmm (evex : Evex) (reg : BitVec 3) (rm : Rm)
  deriving DecidableEq, Repr

/-- The seven forms by number (00_scope.md R2). -/
inductive Form where
  | mm
  | xmm
  | vexXmm
  | vexYmm
  | evexXmm
  | evexYmm
  | evexZmm
  deriving DecidableEq, Repr

/-- The form an instruction is of. -/
def Instr.form : Instr → Form
  | .pmuludqMm _ _ _ => .mm
  | .pmuludqXmm _ _ _ => .xmm
  | .vpmuludqVexXmm _ _ _ => .vexXmm
  | .vpmuludqVexYmm _ _ _ => .vexYmm
  | .vpmuludqEvexXmm _ _ _ => .evexXmm
  | .vpmuludqEvexYmm _ _ _ => .evexYmm
  | .vpmuludqEvexZmm _ _ _ => .evexZmm

/-- The ModRM:r/m operand of an instruction. -/
def Instr.rm : Instr → Rm
  | .pmuludqMm _ _ rm => rm
  | .pmuludqXmm _ _ rm => rm
  | .vpmuludqVexXmm _ _ rm => rm
  | .vpmuludqVexYmm _ _ rm => rm
  | .vpmuludqEvexXmm _ _ rm => rm
  | .vpmuludqEvexYmm _ _ rm => rm
  | .vpmuludqEvexZmm _ _ rm => rm

/-- The quantity of 64-bit lanes of a form, `KL` (00_scope.md R16; one lane for form 1). -/
def Form.lanes : Form → Nat
  | .mm => 1
  | .xmm => 2
  | .vexXmm => 2
  | .vexYmm => 4
  | .evexXmm => 2
  | .evexYmm => 4
  | .evexZmm => 8

/-- Whether a form is VEX- or EVEX-encoded (forms 3 to 7). -/
def Form.isVexOrEvex : Form → Bool
  | .mm => false
  | .xmm => false
  | .vexXmm => true
  | .vexYmm => true
  | .evexXmm => true
  | .evexYmm => true
  | .evexZmm => true

end Sys2Proof
end

