-- ==== Sys2Proof/WellFormed.lean ====
section
/-! DEFINITION. Which terms an encoding exists for (30_encoding.md R73, R74, R86): the three shapes of ModRM and SIB that mean
something else are excluded. -/

namespace Sys2Proof

/-- `rm = 4` announces a SIB byte, and `mod = 0` with `rm = 5` is the RIP-relative operand, so neither is a plain base; a SIB
byte with `mod = 0` and `base = 5` has no base register (30_encoding.md R86). -/
def MemOperand.wellFormed : MemOperand → Bool
  | .base rm disp => rm != 4#3 && (disp != .none || rm != 5#3)
  | .ripRel _ => true
  | .sib _ _ baseReg disp => disp != .none || baseReg != 5#3
  | .sibNoBase _ _ _ => true

/-- A register operand is always encodable, a memory operand when its shape is. -/
def Rm.wellFormed : Rm → Bool
  | .reg _ => true
  | .mem m => m.wellFormed

/-- Every value of the other fields is encodable (30_encoding.md R82, R84, R94 (e)). -/
def Instr.WellFormed (i : Instr) : Bool := i.rm.wellFormed

end Sys2Proof
end

