-- ==== Sys2Proof/Decode.lean ====
section
/-! DEFINITION. The decoder (30_encoding.md R73 to R94), total on any list of bytes, the encoder written from the same layouts, and
the length of an instruction (R92). -/

namespace Sys2Proof

/-! ## The result of decoding -/

/-- Why bytes are not an instruction in scope; the model refuses them (30_encoding.md R93 step 6, R94). -/
inductive NotInScope where
  /-- another opcode, or another opcode map of the legacy encoding (R93 step 6) -/
  | otherOpcode
  /-- F2 or F3 before `0F F4` (R75, R94 (b)) -/
  | repeatPrefix
  /-- a segment override, 67, a repeated 66, or a misplaced REX byte (R77, R93) -/
  | prefixNotAdmitted
  /-- a VEX prefix with another `pp` or opcode map (R94 (d)) -/
  | vexFields
  /-- an EVEX prefix with W = 0, another map, another `pp`, or reserved bits wrong (R94 (f)) -/
  | evexFields
  deriving DecidableEq, Repr

/-- What the decoder reads from bytes. -/
inductive DecodeResult where
  /-- an instruction, and the bytes after it -/
  | instr (i : Instr) (rest : List Byte)
  /-- an encoding that raises #UD whatever the state (R94 (a), (c), (g)) -/
  | invalid
  /-- not an instruction in scope -/
  | refused (why : NotInScope)
  /-- the bytes end before the instruction does -/
  | incomplete
  deriving DecidableEq, Repr

/-! ## Prefix bytes -/

/-- A REX byte is 40 to 4F (30_encoding.md R73, R76). -/
def rexOf (b : Byte) : Option Rex :=
  if b.extractLsb' 4 4 = 4#4 then
    some { w := b.getLsbD 3, r := b.getLsbD 2, x := b.getLsbD 1, b := b.getLsbD 0 }
  else none

/-- The REX byte of its four bits. -/
def Rex.byte (r : Rex) : Byte :=
  4#4 ++ BitVec.ofBool r.w ++ BitVec.ofBool r.r ++ BitVec.ofBool r.x ++ BitVec.ofBool r.b

/-- The prefix bytes of 30_encoding.md R75 to R77: 66, F2, F3, F0, the segment overrides, 67, and REX. -/
def isPrefixByte (b : Byte) : Bool :=
  b == 0x66 || b == 0xF2 || b == 0xF3 || b == 0xF0 || b == 0x2E || b == 0x36 || b == 0x3E || b == 0x26 ||
  b == 0x64 || b == 0x65 || b == 0x67 || b.extractLsb' 4 4 == 4#4

/-- The prefix bytes that may not precede a VEX or EVEX prefix: 66, F2, F3, F0 and REX (60_exceptions.md R192, R193). -/
def forbiddenBeforeVex (b : Byte) : Bool :=
  b == 0x66 || b == 0xF2 || b == 0xF3 || b == 0xF0 || b.extractLsb' 4 4 == 4#4

/-! ## ModRM, SIB and displacement -/

/-- Four bytes, least significant first (30_encoding.md R90). -/
def join32 (b0 b1 b2 b3 : Byte) : BitVec 32 := b3 ++ b2 ++ b1 ++ b0

/-- The four bytes of a 32-bit displacement, least significant first. -/
def disp32Bytes (d : BitVec 32) : List Byte :=
  [d.extractLsb' 0 8, d.extractLsb' 8 8, d.extractLsb' 16 8, d.extractLsb' 24 8]

/-- Reads a 32-bit displacement. -/
def takeDisp32 : List Byte → Option (BitVec 32 × List Byte)
  | b0 :: b1 :: b2 :: b3 :: rest => some (join32 b0 b1 b2 b3, rest)
  | _ => none

/-- Reads the displacement that `mod` announces: none for 0, one byte for 1, four for 2 (30_encoding.md R73). -/
def takeDisp (mod : BitVec 2) (bs : List Byte) : Option (Disp × List Byte) :=
  if mod = 0#2 then some (.none, bs)
  else if mod = 1#2 then
    match bs with
    | b :: rest => some (.disp8 b, rest)
    | [] => none
  else (takeDisp32 bs).map fun p => (.disp32 p.1, p.2)

/-- Reads what follows a SIB byte (30_encoding.md R86 case (c)). -/
def takeSib (mod : BitVec 2) (sib : Byte) (bs : List Byte) : Option (MemOperand × List Byte) :=
  let scale := sib.extractLsb' 6 2
  let index := sib.extractLsb' 3 3
  let base := sib.extractLsb' 0 3
  if mod = 0#2 ∧ base = 5#3 then
    (takeDisp32 bs).map fun p => (.sibNoBase scale index p.1, p.2)
  else (takeDisp mod bs).map fun p => (.sib scale index base p.1, p.2)

/-- Reads a memory operand after ModRM (30_encoding.md R86 cases (a), (b), (c)). -/
def takeMem (mod : BitVec 2) (rm : BitVec 3) (bs : List Byte) : Option (MemOperand × List Byte) :=
  if rm = 4#3 then
    match bs with
    | sib :: rest => takeSib mod sib rest
    | [] => none
  else if mod = 0#2 ∧ rm = 5#3 then (takeDisp32 bs).map fun p => (.ripRel p.1, p.2)
  else (takeDisp mod bs).map fun p => (.base rm p.1, p.2)

/-- Reads ModRM, SIB and displacement: the reg field, the r/m operand and the bytes left (30_encoding.md R74). -/
def takeRm : List Byte → Option (BitVec 3 × Rm × List Byte)
  | [] => none
  | modrm :: rest =>
    let mod := modrm.extractLsb' 6 2
    let reg := modrm.extractLsb' 3 3
    let rm := modrm.extractLsb' 0 3
    if mod = 3#2 then some (reg, .reg rm, rest)
    else (takeMem mod rm rest).map fun p => (reg, .mem p.1, p.2)

/-- The ModRM byte (30_encoding.md R74). -/
def modrmByte (mod : BitVec 2) (reg rm : BitVec 3) : Byte := mod ++ reg ++ rm

/-- The SIB byte (30_encoding.md R73). -/
def sibByte (scale : BitVec 2) (index base : BitVec 3) : Byte := scale ++ index ++ base

/-- The `mod` field that announces a displacement (30_encoding.md R73). -/
def Disp.mod : Disp → BitVec 2
  | .none => 0#2
  | .disp8 _ => 1#2
  | .disp32 _ => 2#2

/-- The bytes of a displacement. -/
def Disp.bytes : Disp → List Byte
  | .none => []
  | .disp8 d => [d]
  | .disp32 d => disp32Bytes d

/-- ModRM, SIB and displacement of an operand. -/
def encodeRm (reg : BitVec 3) : Rm → List Byte
  | .reg rm => [modrmByte 3#2 reg rm]
  | .mem (.base rm disp) => modrmByte disp.mod reg rm :: disp.bytes
  | .mem (.ripRel disp) => modrmByte 0#2 reg 5#3 :: disp32Bytes disp
  | .mem (.sib scale index base disp) => modrmByte disp.mod reg 4#3 :: sibByte scale index base :: disp.bytes
  | .mem (.sibNoBase scale index disp) => modrmByte 0#2 reg 4#3 :: sibByte scale index 5#3 :: disp32Bytes disp

/-- Reads ModRM, SIB and displacement and makes an instruction of them. -/
def withRm (bs : List Byte) (mk : BitVec 3 → Rm → List Byte → DecodeResult) : DecodeResult :=
  match takeRm bs with
  | some (reg, rm, rest) => mk reg rm rest
  | none => .incomplete

/-! ## The legacy encodings, forms 1 and 2 -/

/-- Which form the prefix bytes before `0F F4` spell: none or one REX for form 1; 66 and then none or one REX for form 2; F2 and F3
spell none, LOCK raises #UD, and anything else is refused (30_encoding.md R73, R75, R77, R93, R94; log 14). -/
def legacyForm (ps : List Byte) (reg : BitVec 3) (rm : Rm) (rest : List Byte) : DecodeResult :=
  if ps.contains 0xF2 || ps.contains 0xF3 then .refused .repeatPrefix
  else if ps.contains 0xF0 then .invalid
  else
    match ps with
    | [] => .instr (.pmuludqMm none reg rm) rest
    | [p] =>
      if p = 0x66 then .instr (.pmuludqXmm none reg rm) rest
      else
        match rexOf p with
        | some rex => .instr (.pmuludqMm (some rex) reg rm) rest
        | none => .refused .prefixNotAdmitted
    | [p, q] =>
      if p = 0x66 then
        match rexOf q with
        | some rex => .instr (.pmuludqXmm (some rex) reg rm) rest
        | none => .refused .prefixNotAdmitted
      else .refused .prefixNotAdmitted
    | _ => .refused .prefixNotAdmitted

/-- What follows the escape byte 0F (30_encoding.md R93 steps 4 and 5). -/
def decodeLegacy (ps : List Byte) : List Byte → DecodeResult
  | [] => .incomplete
  | op :: rest => if op = 0xF4 then withRm rest (legacyForm ps) else .refused .otherOpcode

/-! ## The VEX encodings, forms 3 and 4 -/

/-- VEX.L chooses between forms 3 and 4 (30_encoding.md R79, R83). -/
def vexInstr (l : Bool) (vex : Vex) (reg : BitVec 3) (rm : Rm) : Instr :=
  if l then .vpmuludqVexYmm vex reg rm else .vpmuludqVexXmm vex reg rm

/-- The part common to both spellings: `pp = 01` and the opcode F4 (30_encoding.md R79, R93). -/
def decodeVexTail (vex : Vex) (l : Bool) (fieldsOk : Bool) (op : Byte) (rest : List Byte) : DecodeResult :=
  if fieldsOk && op == 0xF4 then
    withRm rest fun reg rm rest' => .instr (vexInstr l vex reg rm) rest'
  else .refused .vexFields

/-- After C5: `R̄ v̄v̄v̄v̄ L pp` (30_encoding.md R78). -/
def decodeVex2 : List Byte → DecodeResult
  | p :: op :: rest =>
    decodeVexTail (.two (!p.getLsbD 7) (~~~(p.extractLsb' 3 4))) (p.getLsbD 2) (p.extractLsb' 0 2 == 1#2) op rest
  | _ => .incomplete

/-- After C4: `R̄ X̄ B̄ mmmmm`, then `W v̄v̄v̄v̄ L pp` (30_encoding.md R78). -/
def decodeVex3 : List Byte → DecodeResult
  | p :: q :: op :: rest =>
    decodeVexTail (.three (q.getLsbD 7) (!p.getLsbD 7) (!p.getLsbD 6) (!p.getLsbD 5) (~~~(q.extractLsb' 3 4)))
      (q.getLsbD 2) (p.extractLsb' 0 5 == 1#5 && q.extractLsb' 0 2 == 1#2) op rest
  | _ => .incomplete

/-- A VEX prefix with `pp = 01` (and map 0F) and the opcode byte, for a vector length bit `l` (30_encoding.md R78). -/
def Vex.bytes (l : Bool) : Vex → List Byte
  | .two r vvvv => [0xC5, BitVec.ofBool (!r) ++ ~~~vvvv ++ BitVec.ofBool l ++ 1#2]
  | .three w r x b vvvv =>
    [0xC4, BitVec.ofBool (!r) ++ BitVec.ofBool (!x) ++ BitVec.ofBool (!b) ++ 1#5,
      BitVec.ofBool w ++ ~~~vvvv ++ BitVec.ofBool l ++ 1#2]

/-! ## The EVEX encodings, forms 5, 6 and 7 -/

/-- EVEX.L'L chooses the form; 11 raises #UD (30_encoding.md R81, R83, R94 (g)). -/
def evexForm (ll : BitVec 2) (evex : Evex) (reg : BitVec 3) (rm : Rm) (rest : List Byte) : DecodeResult :=
  if ll = 0#2 then .instr (.vpmuludqEvexXmm evex reg rm) rest
  else if ll = 1#2 then .instr (.vpmuludqEvexYmm evex reg rm) rest
  else if ll = 2#2 then .instr (.vpmuludqEvexZmm evex reg rm) rest
  else .invalid

/-- The fixed fields of step 1 of 30_encoding.md R93: P0[3:2] = 00, P0[1:0] = 01, P1[2] = 1, P1[1:0] = 01, P1[7] = 1, opcode F4;
other values are refused (log 25). -/
def evexFieldsOk (p0 p1 op : Byte) : Bool :=
  p0.extractLsb' 0 4 == 1#4 && p1.extractLsb' 0 3 == 5#3 && p1.getLsbD 7 && op == 0xF4

/-- The free fields of P0, P1 and P2 (30_encoding.md R80). -/
def evexOf (p0 p1 p2 : Byte) : Evex :=
  { r := !p0.getLsbD 7, x := !p0.getLsbD 6, b := !p0.getLsbD 5, r' := !p0.getLsbD 4,
    vvvv := ~~~(p1.extractLsb' 3 4), v' := !p2.getLsbD 3,
    z := p2.getLsbD 7, bcst := p2.getLsbD 4, aaa := p2.extractLsb' 0 3 }

/-- After 62: P0, P1, P2 and the opcode (30_encoding.md R80, R93 step 1). -/
def decodeEvex : List Byte → DecodeResult
  | p0 :: p1 :: p2 :: op :: rest =>
    if evexFieldsOk p0 p1 op then withRm rest (evexForm (p2.extractLsb' 5 2) (evexOf p0 p1 p2))
    else .refused .evexFields
  | _ => .incomplete

/-- The EVEX prefix for a vector length `ll` (30_encoding.md R80, R81). -/
def Evex.bytes (ll : BitVec 2) (e : Evex) : List Byte :=
  [0x62, BitVec.ofBool (!e.r) ++ BitVec.ofBool (!e.x) ++ BitVec.ofBool (!e.b) ++ BitVec.ofBool (!e.r') ++ 1#4,
    1#1 ++ ~~~e.vvvv ++ 5#3,
    BitVec.ofBool e.z ++ ll ++ BitVec.ofBool e.bcst ++ BitVec.ofBool (!e.v') ++ e.aaa]

/-! ## Decoding -/

/-- A VEX or EVEX encoding after prefix bytes: #UD where one of them is 66, F2, F3, F0 or REX (30_encoding.md R94 (c)), refused
where only segment overrides or 67 precede (R77; log 14). -/
def afterPrefixes (ps : List Byte) (r : DecodeResult) : DecodeResult :=
  if ps.isEmpty then r
  else
    match r with
    | .instr _ _ => if ps.any forbiddenBeforeVex then .invalid else .refused .prefixNotAdmitted
    | .invalid => if ps.any forbiddenBeforeVex then .invalid else .refused .prefixNotAdmitted
    | .refused why => .refused why
    | .incomplete => .incomplete

/-- The opcode and what follows, after the prefix bytes `ps` (30_encoding.md R93). -/
def decodeOpcode (ps : List Byte) : List Byte → DecodeResult
  | [] => .incomplete
  | b :: rest =>
    if b = 0x62 then afterPrefixes ps (decodeEvex rest)
    else if b = 0xC4 then afterPrefixes ps (decodeVex3 rest)
    else if b = 0xC5 then afterPrefixes ps (decodeVex2 rest)
    else if b = 0x0F then decodeLegacy ps rest
    else .refused .otherOpcode

/-- The instruction at the start of `bs`, in 64-bit mode (30_encoding.md R93). -/
def decode (bs : List Byte) : DecodeResult :=
  decodeOpcode (bs.takeWhile isPrefixByte) (bs.dropWhile isPrefixByte)

/-! ## Encoding -/

/-- The bytes of an optional REX prefix. -/
def rexBytes : Option Rex → List Byte
  | none => []
  | some r => [r.byte]

/-- The bytes of an instruction (30_encoding.md R73, R78, R80). -/
def encode : Instr → List Byte
  | .pmuludqMm rex reg rm => rexBytes rex ++ [0x0F, 0xF4] ++ encodeRm reg rm
  | .pmuludqXmm rex reg rm => [0x66] ++ rexBytes rex ++ [0x0F, 0xF4] ++ encodeRm reg rm
  | .vpmuludqVexXmm vex reg rm => vex.bytes false ++ [0xF4] ++ encodeRm reg rm
  | .vpmuludqVexYmm vex reg rm => vex.bytes true ++ [0xF4] ++ encodeRm reg rm
  | .vpmuludqEvexXmm evex reg rm => evex.bytes 0#2 ++ [0xF4] ++ encodeRm reg rm
  | .vpmuludqEvexYmm evex reg rm => evex.bytes 1#2 ++ [0xF4] ++ encodeRm reg rm
  | .vpmuludqEvexZmm evex reg rm => evex.bytes 2#2 ++ [0xF4] ++ encodeRm reg rm

/-! ## Length (30_encoding.md R92) -/

/-- Displacement bytes: 0, 1 or 4. -/
def Disp.len : Disp → Nat
  | .none => 0
  | .disp8 _ => 1
  | .disp32 _ => 4

/-- ModRM, SIB and displacement bytes. -/
def Rm.len : Rm → Nat
  | .reg _ => 1
  | .mem (.base _ disp) => 1 + disp.len
  | .mem (.ripRel _) => 5
  | .mem (.sib _ _ _ disp) => 2 + disp.len
  | .mem (.sibNoBase _ _ _) => 6

/-- REX bytes: 0 or 1. -/
def rexLen : Option Rex → Nat
  | none => 0
  | some _ => 1

/-- VEX prefix bytes: 2 or 3. -/
def Vex.len : Vex → Nat
  | .two _ _ => 2
  | .three _ _ _ _ _ => 3

/-- `len`: prefixes, opcode, ModRM, SIB and displacement. -/
def Instr.len : Instr → Nat
  | .pmuludqMm rex _ rm => rexLen rex + 2 + rm.len
  | .pmuludqXmm rex _ rm => 1 + rexLen rex + 2 + rm.len
  | .vpmuludqVexXmm vex _ rm => vex.len + 1 + rm.len
  | .vpmuludqVexYmm vex _ rm => vex.len + 1 + rm.len
  | .vpmuludqEvexXmm _ _ rm => 4 + 1 + rm.len
  | .vpmuludqEvexYmm _ _ rm => 4 + 1 + rm.len
  | .vpmuludqEvexZmm _ _ rm => 4 + 1 + rm.len

/-- The longest instruction a processor accepts, in bytes (30_encoding.md R92). -/
def maxInstrLen : Nat := 15

/-! ## Words of the opcode table -/

/-- `n` bytes of a number, the most significant first. -/
def bytesMsbFirst (w : Nat) : Nat → List Byte
  | 0 => []
  | n + 1 => BitVec.ofNat 8 (w / 256 ^ n) :: bytesMsbFirst w n

/-- The bytes as stored, zeros after them up to the longest instruction. -/
def padInstr (bs : List Byte) : List Byte := (bs ++ List.replicate maxInstrLen 0).take maxInstrLen

/-- The instruction bytes of an opcode-table number of `nbits` bits. The table's rows number their bytes in address order with the
first byte most significant (opcode_table.json, each row's note and `fixed`): that order is taken when it spells an instruction,
and the opposite order (first byte in bits 7..0) only when it does not (log 18). -/
def tableBytes (nbits w : Nat) : List Byte :=
  let msb := bytesMsbFirst w (nbits / 8)
  match decode (padInstr msb) with
  | .instr _ _ => padInstr msb
  | _ => padInstr msb.reverse

/-- The instruction the decoder reads from an opcode-table number, if it reads one. -/
def decodeTableWord (nbits w : Nat) : Option Instr :=
  match decode (tableBytes nbits w) with
  | .instr i _ => some i
  | _ => none

end Sys2Proof
end

