-- ==== Sys2Proof/Machine/State.lean ====
section
/-! DEFINITION. The state of the machine (10_state.md), its memory, the reasons a step can stop, and the state after reset. -/

namespace Sys2Proof.Machine

/-- Why the bytes of a region cannot be read (60_exceptions.md R191). -/
inductive Barrier where
  /-- the page is not present -/
  | notPresent
  /-- the page is readable at privilege levels 0 to 2 only -/
  | supervisorOnly
  /-- the translation has a reserved bit set -/
  | reservedBit
  deriving DecidableEq, Repr

/-- A range of linear addresses that cannot be read, or not at every privilege level: part of `Accessible` (20_memory.md R60). -/
structure Region where
  base : Nat
  size : Nat
  barrier : Barrier
  deriving DecidableEq, Repr

/-- The state. INVENTORY.md, heading State, gives for each field the rule that names it and its reset value. -/
structure State where
  /-- the processor's parameters, fixed for a run (70_reset_and_hazards.md R221) -/
  cfg : Config
  /-- 64-bit mode (00_scope.md R7) -/
  mode64 : Bool
  /-- V[0..31], each in a 512-bit container whose bits from MAXVL up are zero (10_state.md R20, R21; log 19) -/
  v : Vector Vec 32
  /-- MM[0..7] (10_state.md R23) -/
  mm : Vector Quad 8
  /-- K[0..7] (10_state.md R25) -/
  k : Vector Quad 8
  /-- x[0..15]: RAX RCX RDX RBX RSP RBP RSI RDI R8..R15 (10_state.md R28) -/
  x : Vector Quad 16
  /-- RIP (10_state.md R29) -/
  pc : Quad
  /-- RFLAGS (10_state.md R31) -/
  rflags : BitVec 64
  /-- MXCSR (10_state.md R32) -/
  mxcsr : BitVec 32
  /-- CR0 (10_state.md R33) -/
  cr0 : BitVec 64
  /-- CR2, the faulting linear address (60_exceptions.md R183, R191) -/
  cr2 : Quad
  /-- CR4 (10_state.md R33) -/
  cr4 : BitVec 64
  /-- XCR0 (10_state.md R33) -/
  xcr0 : BitVec 64
  /-- the current privilege level (60_exceptions.md R190, R201) -/
  cpl : BitVec 2
  /-- whether an unmasked x87 floating-point exception is pending (60_exceptions.md R188) -/
  x87ExceptionPending : Bool
  /-- `Mem`: the listed bytes; an unlisted address reads as zero (20_memory.md R55, R60; log 7) -/
  mem : List Host.Cell
  /-- the addresses that cannot be read (20_memory.md R60; log 6) -/
  regions : List Region
  deriving DecidableEq, Repr

/-- The faults of 60_exceptions.md R183. Each is raised by a step whose state it leaves unchanged, ends the run (R196), and
carries the address of the faulting instruction's first byte (10_state.md R29, 60_exceptions.md R197). Stopping here instead of
entering a handler is safe: no claim about a handler can be proved (log 11). -/
inductive Fault where
  /-- #UD, raised by the decoder and by every form (R184 to R186, R192, R193; 30_encoding.md R94); safe -/
  | invalidOpcode (rip : Quad)
  /-- #NM, raised by every form when CR0.TS = 1 (R187); safe -/
  | deviceNotAvailable (rip : Quad)
  /-- #SS(0), raised by a form whose operand, reached through SS, is not canonical (R189); safe -/
  | stackSegment (rip : Quad)
  /-- #GP(0), raised by form 2 for a misaligned operand, and by a form whose operand, reached through DS, is not canonical (R189,
  R190); safe -/
  | generalProtection (rip : Quad)
  /-- #PF, raised by a form whose operand has a byte that cannot be read (R191), with an uninterpreted code and the address CR2
  receives, both free values (log 10); safe -/
  | pageFault (rip : Quad) (code : BitVec 32) (address : Quad)
  /-- #MF, raised by form 1 when an x87 exception is pending (R188); safe -/
  | x87Error (rip : Quad)
  /-- #AC(0), raised by form 1 for an operand not 8-byte aligned when alignment checking is on (R190); safe -/
  | alignmentCheck (rip : Quad)
  deriving DecidableEq, Repr

/-- Why the model gives an input no meaning. Every refusal is safe: no claim about what the machine would do can be proved. -/
inductive Refusal where
  /-- raised by exec for an instruction without a meaning (no arm answers so); safe -/
  | notModelled (mnemonic : String)
  /-- raised by step and by every form outside 64-bit mode (00_scope.md R5 (d), R7; 30_encoding.md R96); safe -/
  | outside64BitMode
  /-- raised by step for bytes that are not an instruction in scope (30_encoding.md R93, R94); safe -/
  | notInScope (why : NotInScope)
  /-- raised by step when the instruction's bytes cannot be read to its end (log 12); safe -/
  | fetchNotReadable
  /-- raised by step for an instruction longer than fifteen bytes, none of which is in the admitted subset; a processor raises
  #GP(0) (30_encoding.md R92, R94 (k); 93 U20; log 13); safe -/
  | instructionTooLong
  /-- raised by every form whose `pc + len` reaches 2^64 (10_state.md R30, 93 U19; log 17); safe -/
  | programWraps
  /-- raised by a form wider than MAXVL, which the constraints of 00_scope.md R6 rule out (log 16); safe -/
  | vectorFileTooNarrow
  deriving DecidableEq, Repr

/-- The outcome of a step. -/
abbrev Out := Host.Outcome State Fault Refusal

/-- The processor of the test vectors (92_eei_decisions.md, after D35), with 48-bit linear addresses. DESIGN CHOICE (log 3). -/
def resetConfig : Config :=
  { maxvl := .v512, sse2 := true, avx := true, avx2 := true, avx512f := true, avx512vl := true, linearWidth := .w48 }

/-- The machine after reset: the values of 10_state.md R38 (log 1), and the named values of log 2 and log 3 where it gives none. -/
def State.reset : State :=
  { cfg := resetConfig
    mode64 := false
    v := Vector.replicate 32 0
    mm := Vector.replicate 8 0
    k := Vector.replicate 8 0
    x := Vector.replicate 16 0
    pc := 0xFFF0
    rflags := 0x2
    mxcsr := 0x1F80
    cr0 := 0x60000010
    cr2 := 0
    cr4 := 0
    xcr0 := 1
    cpl := 0
    x87ExceptionPending := false
    mem := []
    regions := [] }

end Sys2Proof.Machine
end

