-- ==== Sys2Proof/Machine/Flags.lean ====
section
/-! DEFINITION. The status and control bits a form tests (10_state.md R33; 60_exceptions.md R184 to R190). No form computes a flag
(10_state.md R31, 40_pmuludq_legacy.md R115), so there is no flag computation here. -/

namespace Sys2Proof.Machine

/-- `CR0.EM`, bit 2. -/
def State.em (s : State) : Bool := s.cr0.getLsbD 2

/-- `CR0.TS`, bit 3. -/
def State.ts (s : State) : Bool := s.cr0.getLsbD 3

/-- `CR0.AM`, bit 18. -/
def State.am (s : State) : Bool := s.cr0.getLsbD 18

/-- `EFLAGS.AC`, bit 18. -/
def State.ac (s : State) : Bool := s.rflags.getLsbD 18

/-- `CR4.OSFXSR`, bit 9. -/
def State.osfxsr (s : State) : Bool := s.cr4.getLsbD 9

/-- `CR4.OSXSAVE`, bit 18. -/
def State.osxsave (s : State) : Bool := s.cr4.getLsbD 18

/-- `XCR0[2:1] = 11`: SSE and AVX state enabled. -/
def State.avxStateEnabled (s : State) : Bool := s.xcr0.extractLsb' 1 2 == 3#2

/-- `XCR0[7:5] = 111`: opmask and ZMM state enabled. -/
def State.avx512StateEnabled (s : State) : Bool := s.xcr0.extractLsb' 5 3 == 7#3

/-- `AlignmentCheckEnabled`: CR0.AM = 1, EFLAGS.AC = 1 and privilege level 3 (60_exceptions.md R190). -/
def State.alignmentCheckEnabled (s : State) : Bool := s.am && s.ac && s.cpl == 3#2

/-- The CPUID feature flags of a form's row are all set (00_scope.md R2, 60_exceptions.md R184). -/
def featureAvailable (c : Config) : Form → Bool
  | .mm => c.sse2
  | .xmm => c.sse2
  | .vexXmm => c.avx
  | .vexYmm => c.avx2
  | .evexXmm => c.avx512f && c.avx512vl
  | .evexYmm => c.avx512f && c.avx512vl
  | .evexZmm => c.avx512f

/-- `OsEnabled(form)` (60_exceptions.md R185). -/
def State.osEnabled (s : State) : Form → Bool
  | .mm => true
  | .xmm => s.osfxsr
  | .vexXmm => s.osxsave && s.avxStateEnabled
  | .vexYmm => s.osxsave && s.avxStateEnabled
  | .evexXmm => s.osxsave && s.avxStateEnabled && s.avx512StateEnabled
  | .evexYmm => s.osxsave && s.avxStateEnabled && s.avx512StateEnabled
  | .evexZmm => s.osxsave && s.avxStateEnabled && s.avx512StateEnabled

/-- The quantity of vector registers, `NVEC` (10_state.md R21). -/
def State.nvec (s : State) : Nat :=
  if s.mode64 then (if s.cfg.avx512f then 32 else 16) else 8

end Sys2Proof.Machine
end

