-- ==== Sys2Proof/Machine/Lanes.lean ====
section
/-! DEFINITION. Lanes and the lane operation (40_pmuludq_legacy.md R110 to R114; 00_scope.md R12): the bit-field helpers shared by every
form. -/

namespace Sys2Proof.Machine

/-- Puts the `w`-bit fields `f 0`, …, `f (n - 1)` side by side, field 0 lowest, zeros above. -/
def pack (w : Nat) (f : Nat → BitVec w) : Nat → Vec
  | 0 => 0
  | n + 1 => pack w f n ||| ((f n).setWidth 512 <<< (w * n))

/-- Quadword lane `j` of a value, `X[64j+63:64j]` (00_scope.md R12). -/
def lane (x : Vec) (j : Nat) : Quad := x.extractLsb' (64 * j) 64

/-- The low doubleword of a quadword, the only half that enters the computation (40_pmuludq_legacy.md R113). -/
def lowDword (q : Quad) : BitVec 32 := q.setWidth 32

/-- `ZeroExtend64(a[31:0]) * ZeroExtend64(b[31:0])` (40_pmuludq_legacy.md R110). -/
def laneProduct (a b : Quad) : Quad := (lowDword a).setWidth 64 * (lowDword b).setWidth 64

/-- `n` lanes of products, zeros above (R110; 41_vpmuludq_vex.md R132). -/
def mulLanes (n : Nat) (a b : Vec) : Vec := pack 64 (fun j => laneProduct (lane a j) (lane b j)) n

/-- `n` lanes under a writemask, zeros above (42_vpmuludq_evex.md R150, R154, R156): an active lane is the product, a masked-off one
keeps the old value under merging (`z` false) and is zero under zeroing. -/
def mulLanesMasked (n : Nat) (active : Nat → Bool) (z : Bool) (old a : Vec) (b : Nat → Quad) : Vec :=
  pack 64 (fun j => if active j then laneProduct (lane a j) (b j) else if z then 0 else lane old j) n

/-- Replaces bits [127:0] of `old` by those of `r` (40_pmuludq_legacy.md R121). -/
def replaceLow128 (old r : Vec) : Vec := old.extractLsb' 128 384 ++ r.extractLsb' 0 128

end Sys2Proof.Machine
end

