-- ==== Sys2Proof/Machine/Ops.lean ====
section
/-! DEFINITION. The shared operations: memory, registers, raising a fault, the conditions checked before a form executes, completing an
instruction, and fetching one. -/

namespace Sys2Proof.Machine

/-! ## Memory as a list of cells -/

/-- What an address that is not listed reads as. DESIGN CHOICE (log 7). -/
def unlistedByte : Byte := 0

/-- The byte at an address. -/
def readCells : List Host.Cell → Nat → Byte
  | [], _ => unlistedByte
  | (a, b) :: rest, at' => if a = at' then b else readCells rest at'

/-- Writes a byte, keeping the addresses strictly rising and no listed byte equal to what an unlisted address reads as. -/
def writeCells : List Host.Cell → Nat → Byte → List Host.Cell
  | [], at', v => if v = unlistedByte then [] else [(at', v)]
  | (a, b) :: rest, at', v =>
    if at' < a then
      (if v = unlistedByte then (a, b) :: rest else (at', v) :: (a, b) :: rest)
    else if at' = a then
      (if v = unlistedByte then rest else (a, v) :: rest)
    else (a, b) :: writeCells rest at' v

/-- The canonical form from address `lo` up: addresses strictly rising and below 2^64, no byte equal to the unlisted one. -/
def cellsWfFrom (lo : Nat) : List Host.Cell → Bool
  | [] => true
  | (a, b) :: rest => lo ≤ a && a < 2 ^ 64 && b != unlistedByte && cellsWfFrom (a + 1) rest

/-- The canonical form of a memory. -/
def Memory.wf (m : List Host.Cell) : Bool := cellsWfFrom 0 m

/-- The byte of memory at a linear address. -/
def State.byteAt (s : State) (a : Nat) : Byte := readCells s.mem a

/-- Stores bytes from address `a` up; a byte that would lie at or above 2^64 is not stored. No form uses it (20_memory.md R54): it
stands for the world outside that places a program (log 4). -/
def State.storeBytes (s : State) (a : Nat) : List Byte → State
  | [] => s
  | b :: rest =>
    (if a < 2 ^ 64 then { s with mem := writeCells s.mem a b } else s).storeBytes (a + 1) rest

/-! ## Which addresses can be read -/

/-- Whether a linear address is canonical: it fits in 64 bits, and its bits from 63 down to the top implemented one are equal
(20_memory.md R55). PRESUMED (log 8), log 9. -/
def canonicalAddress (w : LinearWidth) (a : Nat) : Bool :=
  decide (a < 2 ^ (w.bits - 1)) || (decide (2 ^ 64 - 2 ^ (w.bits - 1) ≤ a) && decide (a < 2 ^ 64))

/-- Whether a region keeps privilege level `cpl` from reading (60_exceptions.md R191). -/
def Barrier.blocks (cpl : BitVec 2) : Barrier → Bool
  | .notPresent => true
  | .supervisorOnly => cpl == 3#2
  | .reservedBit => true

/-- Whether an address lies in a region. -/
def Region.covers (r : Region) (a : Nat) : Bool := decide (r.base ≤ a) && decide (a < r.base + r.size)

/-- Whether the page of an address can be read at the current privilege level (60_exceptions.md R191). -/
def State.readableAt (s : State) (a : Nat) : Bool :=
  s.regions.all fun r => !(r.covers a && r.barrier.blocks s.cpl)

/-- All `n` bytes from `a` are canonical. -/
def State.canonicalRange (s : State) (a : Nat) : Nat → Bool
  | 0 => true
  | n + 1 => canonicalAddress s.cfg.linearWidth a && s.canonicalRange (a + 1) n

/-- All `n` bytes from `a` can be read. -/
def State.readableRange (s : State) (a : Nat) : Nat → Bool
  | 0 => true
  | n + 1 => s.readableAt a && s.readableRange (a + 1) n

/-- `Accessible(addr, n)` (20_memory.md R60). -/
def State.accessible (s : State) (a n : Nat) : Bool := s.canonicalRange a n && s.readableRange a n

/-- The value of `n` bytes from `a`: bits [8i+7:8i] are the byte at `a + i` (20_memory.md R56). -/
def State.memValue (s : State) (a n : Nat) : Vec := pack 8 (fun i => s.byteAt (a + i)) n

/-! ## Registers -/

/-- `V[n]` (10_state.md R20). -/
def State.vec (s : State) (n : BitVec 5) : Vec := s.v[n.toNat]'n.isLt

/-- `MM[n]` (10_state.md R23). -/
def State.mmReg (s : State) (n : BitVec 3) : Quad := s.mm[n.toNat]'n.isLt

/-- `K[n]` (10_state.md R25). -/
def State.opmask (s : State) (n : BitVec 3) : Quad := s.k[n.toNat]'n.isLt

/-- `x[n]` (10_state.md R28). -/
def State.gpr (s : State) (n : BitVec 4) : Quad := s.x[n.toNat]'n.isLt

/-- `V[n] <- val` (10_state.md R22). -/
def State.setVec (s : State) (n : BitVec 5) (val : Vec) : State := { s with v := s.v.set n.toNat val n.isLt }

/-- `MM[n] <- val` (10_state.md R23). -/
def State.setMm (s : State) (n : BitVec 3) (val : Quad) : State := { s with mm := s.mm.set n.toNat val n.isLt }

/-- `pc <- val`. -/
def State.setPc (s : State) (val : Quad) : State := { s with pc := val }

/-! ## Raising a fault -/

/-- `raise #XX(code)` (00_scope.md R15, 60_exceptions.md R196, R197): the step ends with the fault, which reports the address of the
instruction's first byte; no state changes and no handler is entered (log 11). Nothing returns from it (R198). -/
def raise (e : Quad → Fault) (s : State) : Out := .fault (e s.pc)

/-- The vector number of a fault (60_exceptions.md R183). -/
def Fault.vector : Fault → Nat
  | .invalidOpcode _ => 6
  | .deviceNotAvailable _ => 7
  | .stackSegment _ => 12
  | .generalProtection _ => 13
  | .pageFault _ _ _ => 14
  | .x87Error _ => 16
  | .alignmentCheck _ => 17

/-- The error code of a fault, where it has one (60_exceptions.md R183). -/
def Fault.errorCode : Fault → Option (BitVec 32)
  | .invalidOpcode _ => none
  | .deviceNotAvailable _ => none
  | .stackSegment _ => some 0
  | .generalProtection _ => some 0
  | .pageFault _ code _ => some code
  | .x87Error _ => none
  | .alignmentCheck _ => some 0

/-- The instruction pointer a fault reports (60_exceptions.md R197). -/
def Fault.rip : Fault → Quad
  | .invalidOpcode rip => rip
  | .deviceNotAvailable rip => rip
  | .stackSegment rip => rip
  | .generalProtection rip => rip
  | .pageFault rip _ _ => rip
  | .x87Error rip => rip
  | .alignmentCheck rip => rip

/-! ## The conditions checked before a form executes -/

/-- Forms 1 and 2 test CR0.EM (60_exceptions.md R186). -/
def testsEm : Form → Bool
  | .mm => true
  | .xmm => true
  | .vexXmm => false
  | .vexYmm => false
  | .evexXmm => false
  | .evexYmm => false
  | .evexZmm => false

/-- Form 1 tests for a pending x87 exception (60_exceptions.md R188). -/
def testsX87 : Form → Bool
  | .mm => true
  | .xmm => false
  | .vexXmm => false
  | .vexYmm => false
  | .evexXmm => false
  | .evexYmm => false
  | .evexZmm => false

/-- The width of vector register a form needs, in bits (41_vpmuludq_vex.md R131, 42_vpmuludq_evex.md R152, R153); none for form 1. -/
def neededMaxVl : Form → Nat
  | .mm => 0
  | .xmm => 128
  | .vexXmm => 128
  | .vexYmm => 256
  | .evexXmm => 128
  | .evexYmm => 256
  | .evexZmm => 512

/-- Every cause of #UD that the state decides, or the encoding (`illegal`) (60_exceptions.md R184, R185, R186, R192). -/
def udCondition (f : Form) (illegal : Bool) (s : State) : Bool :=
  illegal || !featureAvailable s.cfg f || !s.osEnabled f || (testsEm f && s.em)

/-- Steps (1) to (3) of the order of 60_exceptions.md R195: #UD, #NM, #MF; then the form goes on with `k`. Outside 64-bit mode every
form is refused (30_encoding.md R96), and one wider than MAXVL is (log 16). -/
def gated (f : Form) (illegal : Bool) (s : State) (k : Out) : Out :=
  if s.mode64 = false then .refused .outside64BitMode
  else if udCondition f illegal s then raise .invalidOpcode s
  else if s.ts then raise .deviceNotAvailable s
  else if testsX87 f && s.x87ExceptionPending then raise .x87Error s
  else if s.cfg.maxvl.bits < neededMaxVl f then .refused .vectorFileTooNarrow
  else k

/-! ## Reading a memory operand -/

/-- The segment an operand is reached through (30_encoding.md R89). -/
inductive Segment where
  | ss
  | ds
  deriving DecidableEq, Repr

/-- The alignment rule of a memory operand (20_memory.md R57). -/
inductive Alignment where
  /-- none (forms 3 to 7) -/
  | any
  /-- 16 bytes, else #GP(0) (form 2) -/
  | sixteen
  /-- 8 bytes when alignment checking is on, else #AC(0) (form 1) -/
  | checkedEight
  deriving DecidableEq, Repr

/-- One read of a memory operand. -/
structure Access where
  /-- the linear address -/
  addr : Quad
  /-- the size in bytes -/
  bytes : Nat
  segment : Segment
  alignment : Alignment
  deriving DecidableEq, Repr

/-- The fault for an address that is not canonical (60_exceptions.md R189). -/
def Segment.addressFault : Segment → Quad → Fault
  | .ss => .stackSegment
  | .ds => .generalProtection

/-- #GP(0) for form 2's misaligned operand (60_exceptions.md R190). -/
def Access.misaligned16 (a : Access) : Bool := a.alignment == .sixteen && a.addr.toNat % 16 != 0

/-- #AC(0) for form 1's misaligned operand (60_exceptions.md R190). -/
def Access.misaligned8 (a : Access) : Bool := a.alignment == .checkedEight && a.addr.toNat % 8 != 0

/-- The first condition of steps (4) to (6) of 60_exceptions.md R195 that holds: misalignment, a bad address, an unreadable page, an
alignment check (log 15). -/
def Access.fault? (a : Access) (s : State) : Option Fault :=
  if a.misaligned16 then some (.generalProtection s.pc)
  else if !s.canonicalRange a.addr.toNat a.bytes then some (a.segment.addressFault s.pc)
  else if !s.readableRange a.addr.toNat a.bytes then
    some (.pageFault s.pc (Config.pageFaultCode s.pc a.addr a.bytes) (Config.pageFaultAddress s.pc a.addr a.bytes))
  else if s.alignmentCheckEnabled && a.misaligned8 then some (.alignmentCheck s.pc)
  else none

/-- `MemRead(addr, n)` with its faults (00_scope.md R15, 20_memory.md R60). -/
def Access.load (a : Access) (s : State) : Except Fault Vec :=
  match a.fault? s with
  | some f => .error f
  | none => .ok (s.memValue a.addr.toNat a.bytes)

/-- Goes on with the value read, or ends with the fault. -/
def withValue (r : Except Fault Vec) (k : Vec → Out) : Out :=
  match r with
  | .ok v => k v
  | .error f => .fault f

/-! ## Completing an instruction -/

/-- `pc <- pc + len` on a state whose results are written; a program that would wrap is refused (10_state.md R30, 92 D8). -/
def retire (len : Nat) (s : State) : Out :=
  if s.pc.toNat + len < 2 ^ 64 then .next (s.setPc (s.pc + BitVec.ofNat 64 len)) else .refused .programWraps

/-! ## Fetching -/

/-- The bytes from `a` up, at most `n`, as far as they can be read (20_memory.md R68; log 12). -/
def State.bytesFrom (s : State) (a : Nat) : Nat → List Byte
  | 0 => []
  | n + 1 =>
    if canonicalAddress s.cfg.linearWidth a && s.readableAt a then s.byteAt a :: s.bytesFrom (a + 1) n else []

/-- The bytes the decoder is given: at most fifteen from `pc` (30_encoding.md R92, R93). -/
def State.fetchWindow (s : State) : List Byte := s.bytesFrom s.pc.toNat maxInstrLen

/-- The instruction at `pc`, or how the step ends without one: #UD for an invalid encoding, a refusal for bytes out of scope, longer
than fifteen bytes or unreadable (30_encoding.md R93, R94; 93 U20; log 12, log 13). -/
def fetch (s : State) : Except Out Instr :=
  if s.mode64 = false then .error (.refused .outside64BitMode)
  else
    match decode s.fetchWindow with
    | .instr i _ => .ok i
    | .invalid => .error (raise .invalidOpcode s)
    | .refused why => .error (.refused (.notInScope why))
    | .incomplete =>
      if s.fetchWindow.length = maxInstrLen then .error (.refused .instructionTooLong)
      else .error (.refused .fetchNotReadable)

/-! ## Placing a program -/

/-- What boot software must have done before the forms are usable (70_reset_and_hazards.md R222): 64-bit mode entered, CR0.EM and
CR0.TS clear, CR4.OSFXSR and CR4.OSXSAVE set, XCR0[2:1] and XCR0[7:5] set; every other bit as it was (log 4). -/
def State.enableForms (s : State) : State :=
  { s with
    mode64 := true
    cr0 := s.cr0 &&& ~~~0xC
    cr4 := s.cr4 ||| 0x40200
    xcr0 := s.xcr0 ||| 0xE6 }

/-- Boot software's enabling, then the bytes of an opcode-table word at `pc` (log 4, log 18). -/
def State.placeTableWord (s : State) (nbits w : Nat) : State :=
  s.enableForms.storeBytes s.pc.toNat (tableBytes nbits w)

end Sys2Proof.Machine
end

