-- ==== Sys2Proof/Machine/Operands.lean ====
section
/-! DEFINITION. The operands of the seven forms: register numbers, effective addresses, displacements, and the source operand as a
register or a read of memory (30_encoding.md R74 to R90; 20_memory.md R50 to R53). -/

namespace Sys2Proof.Machine

/-! ## Prefix bits -/

/-- REX.R, 0 without a REX prefix (30_encoding.md R76, R82). -/
def rexR : Option Rex → Bool
  | none => false
  | some r => r.r

/-- REX.X, 0 without a REX prefix. -/
def rexX : Option Rex → Bool
  | none => false
  | some r => r.x

/-- REX.B, 0 without a REX prefix. -/
def rexB : Option Rex → Bool
  | none => false
  | some r => r.b

/-- The register-extension bit of a VEX prefix for ModRM.reg (30_encoding.md R78). -/
def vexR : Vex → Bool
  | .two r _ => r
  | .three _ r _ _ _ => r

/-- The index-extension bit of a VEX prefix; the two-byte spelling implies 0. -/
def vexX : Vex → Bool
  | .two _ _ => false
  | .three _ _ x _ _ => x

/-- The extension bit of a VEX prefix for ModRM.rm or the base; the two-byte spelling implies 0. -/
def vexB : Vex → Bool
  | .two _ _ => false
  | .three _ _ _ b _ => b

/-- The vvvv field of a VEX prefix. -/
def vexV : Vex → BitVec 4
  | .two _ vvvv => vvvv
  | .three _ _ _ _ vvvv => vvvv

/-! ## Register numbers (30_encoding.md R82) -/

/-- A 4-bit vector register number: `8 * ext + field`. -/
def regNumber4 (ext : Bool) (field : BitVec 3) : BitVec 5 := 0#1 ++ BitVec.ofBool ext ++ field

/-- The first source of a VEX form. -/
def vexVNumber (vex : Vex) : BitVec 5 := 0#1 ++ vexV vex

/-- The ModRM:reg operand of an EVEX form: `16 * R' + 8 * R + reg`. -/
def evexRegNumber (e : Evex) (reg : BitVec 3) : BitVec 5 := BitVec.ofBool e.r' ++ BitVec.ofBool e.r ++ reg

/-- The first source of an EVEX form: `16 * V' + vvvv`. -/
def evexVNumber (e : Evex) : BitVec 5 := BitVec.ofBool e.v' ++ e.vvvv

/-- A register ModRM:r/m operand of an EVEX form: `16 * X + 8 * B + rm`. -/
def evexRmNumber (e : Evex) (rm : BitVec 3) : BitVec 5 := BitVec.ofBool e.x ++ BitVec.ofBool e.b ++ rm

/-! ## Effective addresses (30_encoding.md R86 to R90) -/

/-- What an address depends on besides ModRM and SIB: the extension bits, the factor of an 8-bit displacement, and the length of the
instruction. -/
structure AddrContext where
  /-- `Bx`, extends the base -/
  bx : Bool
  /-- `Xx`, extends the index -/
  xx : Bool
  /-- `N` of R90; 1 for forms 1 to 4 -/
  disp8Factor : Nat
  /-- `len` of R92 -/
  len : Nat
  deriving DecidableEq, Repr

/-- The base register, if there is one (R86). -/
def baseRegister (c : AddrContext) : MemOperand → Option (BitVec 4)
  | .base rm _ => some (BitVec.ofBool c.bx ++ rm)
  | .ripRel _ => none
  | .sib _ _ base _ => some (BitVec.ofBool c.bx ++ base)
  | .sibNoBase _ _ _ => none

/-- A SIB index: number 4 means no index (R86). -/
def sibIndex (c : AddrContext) (index : BitVec 3) : Option (BitVec 4) :=
  if BitVec.ofBool c.xx ++ index = 4#4 then none else some (BitVec.ofBool c.xx ++ index)

/-- The index register, if there is one (R86). -/
def indexRegister (c : AddrContext) : MemOperand → Option (BitVec 4)
  | .base _ _ => none
  | .ripRel _ => none
  | .sib _ index _ _ => sibIndex c index
  | .sibNoBase _ index _ => sibIndex c index

/-- The scale; 0 without a SIB byte (R87). -/
def scaleOf : MemOperand → Nat
  | .base _ _ => 0
  | .ripRel _ => 0
  | .sib scale _ _ _ => scale.toNat
  | .sibNoBase scale _ _ => scale.toNat

/-- `Disp`: sign-extended, an 8-bit one times `N` (R90). -/
def dispValue (n : Nat) : Disp → Quad
  | .none => 0
  | .disp8 d => d.signExtend 64 * BitVec.ofNat 64 n
  | .disp32 d => d.signExtend 64

/-- The displacement of an operand (R86, R90). -/
def dispOf (c : AddrContext) : MemOperand → Quad
  | .base _ disp => dispValue c.disp8Factor disp
  | .ripRel disp => dispValue c.disp8Factor (.disp32 disp)
  | .sib _ _ _ disp => dispValue c.disp8Factor disp
  | .sibNoBase _ _ disp => dispValue c.disp8Factor (.disp32 disp)

/-- The value of a register, or 0 when there is none (R87). -/
def registerOrZero (s : State) : Option (BitVec 4) → Quad
  | none => 0
  | some n => s.gpr n

/-- `BaseVal`: the base register, or the address of the next instruction for a RIP-relative operand (R87, R88). -/
def baseValue (c : AddrContext) (s : State) : MemOperand → Quad
  | .ripRel _ => s.pc + BitVec.ofNat 64 c.len
  | .base rm disp => registerOrZero s (baseRegister c (.base rm disp))
  | .sib scale index base disp => registerOrZero s (baseRegister c (.sib scale index base disp))
  | .sibNoBase scale index disp => registerOrZero s (baseRegister c (.sibNoBase scale index disp))

/-- `EA`, equal to the linear address in 64-bit mode (R87, R88, R89). -/
def effectiveAddress (c : AddrContext) (s : State) (m : MemOperand) : Quad :=
  baseValue c s m + (registerOrZero s (indexRegister c m) <<< scaleOf m) + dispOf c m

/-- The default segment: SS when the base register is RSP or RBP, else DS (R89). -/
def segmentOf (c : AddrContext) (m : MemOperand) : Segment :=
  if baseRegister c m = some 4#4 ∨ baseRegister c m = some 5#4 then .ss else .ds

/-- The read a memory operand asks for. -/
def accessOf (c : AddrContext) (bytes : Nat) (alignment : Alignment) (s : State) (m : MemOperand) : Access :=
  { addr := effectiveAddress c s m, bytes := bytes, segment := segmentOf c m, alignment := alignment }

/-! ## Address contexts and memory reads of each encoding -/

/-- Forms 1 and 2 (R76, R86). -/
def legacyContext (rex : Option Rex) (len : Nat) : AddrContext :=
  { bx := rexB rex, xx := rexX rex, disp8Factor := 1, len := len }

/-- Forms 3 and 4 (R82, R86). -/
def vexContext (vex : Vex) (len : Nat) : AddrContext :=
  { bx := vexB vex, xx := vexX vex, disp8Factor := 1, len := len }

/-- The bytes of an EVEX form's memory operand: VL/8, or 8 with broadcast (20_memory.md R51, R53); also `N` of R90. -/
def evexBytes (lanes : Nat) (e : Evex) : Nat := if e.bcst then 8 else 8 * lanes

/-- Forms 5 to 7: the 8-bit displacement is scaled by the size of the operand (R90). -/
def evexContext (lanes : Nat) (e : Evex) (len : Nat) : AddrContext :=
  { bx := e.b, xx := e.x, disp8Factor := evexBytes lanes e, len := len }

/-- The read of form 1: 8 bytes, alignment checked only when alignment checking is on. -/
def mmAccess (rex : Option Rex) (len : Nat) (s : State) (m : MemOperand) : Access :=
  accessOf (legacyContext rex len) 8 .checkedEight s m

/-- The read of form 2: 16 bytes, aligned. -/
def xmmAccess (rex : Option Rex) (len : Nat) (s : State) (m : MemOperand) : Access :=
  accessOf (legacyContext rex len) 16 .sixteen s m

/-- The read of forms 3 and 4: `8 * lanes` bytes. -/
def vexAccess (lanes : Nat) (vex : Vex) (len : Nat) (s : State) (m : MemOperand) : Access :=
  accessOf (vexContext vex len) (8 * lanes) .any s m

/-- The read of forms 5 to 7, the whole operand whatever the mask (20_memory.md R59; log 21). -/
def evexAccess (lanes : Nat) (e : Evex) (len : Nat) (s : State) (m : MemOperand) : Access :=
  accessOf (evexContext lanes e len) (evexBytes lanes e) .any s m

/-- The last source operand: a register, or the value read from memory (20_memory.md R50). -/
def sourceOperand (ofReg : BitVec 3 → Vec) (access : MemOperand → Access) (s : State) : Rm → Except Fault Vec
  | .reg rm => .ok (ofReg rm)
  | .mem m => (access m).load s

/-! ## EVEX conditions -/

/-- Whether operand 3 is in memory. -/
def Rm.isMemory : Rm → Bool
  | .reg _ => false
  | .mem _ => true

/-- The EVEX encodings that raise #UD: broadcast with a register operand, zeroing without a writemask (30_encoding.md R84, R94 (h),
(i); 42_vpmuludq_evex.md R154, R155). -/
def evexIllegal (e : Evex) (rm : Rm) : Bool := (e.bcst && !Rm.isMemory rm) || (e.z && e.aaa == 0#3)

/-- Lane `j` is computed: no writemask, or its mask bit is set (42_vpmuludq_evex.md R154). -/
def evexActive (s : State) (e : Evex) (j : Nat) : Bool := e.aaa == 0#3 || (s.opmask e.aaa).getLsbD j

/-- The second factor's quadword for lane `j`: the broadcast element, or lane `j` (42_vpmuludq_evex.md R155). -/
def evexSecond (e : Evex) (rm : Rm) (src : Vec) (j : Nat) : Quad :=
  if e.bcst && Rm.isMemory rm then lane src 0 else lane src j

end Sys2Proof.Machine
end

