-- ==== Sys2Proof/Machine/Evex.lean ====
section
/-! DEFINITION. Forms 5, 6 and 7, the EVEX-encoded VPMULUDQ with writemask and broadcast (42_vpmuludq_evex.md R150 to R159). -/

namespace Sys2Proof.Machine

/-- The second source operand of an EVEX form: a register, the whole memory operand, or the 64-bit element to broadcast. -/
def evexSource (lanes : Nat) (e : Evex) (len : Nat) (s : State) (rm : Rm) : Except Fault Vec :=
  sourceOperand (fun r => s.vec (evexRmNumber e r)) (evexAccess lanes e len s) s rm

/-- The destination's new value (R150): masked lanes, every bit above VL zeroed. -/
def evexResult (lanes : Nat) (e : Evex) (reg : BitVec 3) (rm : Rm) (s : State) (src : Vec) : Vec :=
  mulLanesMasked lanes (evexActive s e) e.z (s.vec (evexRegNumber e reg)) (s.vec (evexVNumber e)) (evexSecond e rm src)

/-- The algorithm the three forms share (R150). -/
def execEvex (f : Form) (len : Nat) (e : Evex) (reg : BitVec 3) (rm : Rm) (s : State) : Out :=
  gated f (evexIllegal e rm) s <|
    withValue (evexSource f.lanes e len s rm) fun src =>
      retire len (s.setVec (evexRegNumber e reg) (evexResult f.lanes e reg rm s src))

/-- Form 5, on XMM registers (R151). -/
def execVpmuludqEvexXmm (e : Evex) (reg : BitVec 3) (rm : Rm) (s : State) : Out :=
  execEvex .evexXmm (Instr.len (.vpmuludqEvexXmm e reg rm)) e reg rm s

/-- Form 6, on YMM registers (R152). -/
def execVpmuludqEvexYmm (e : Evex) (reg : BitVec 3) (rm : Rm) (s : State) : Out :=
  execEvex .evexYmm (Instr.len (.vpmuludqEvexYmm e reg rm)) e reg rm s

/-- Form 7, on ZMM registers (R153). -/
def execVpmuludqEvexZmm (e : Evex) (reg : BitVec 3) (rm : Rm) (s : State) : Out :=
  execEvex .evexZmm (Instr.len (.vpmuludqEvexZmm e reg rm)) e reg rm s

end Sys2Proof.Machine
end

