-- ==== Sys2Proof/Machine/Legacy.lean ====
section
/-! DEFINITION. Forms 1 and 2, PMULUDQ on MMX and XMM registers (40_pmuludq_legacy.md R120, R121). -/

namespace Sys2Proof.Machine

/-- The source operand of form 1; REX does not extend an MMX register number (30_encoding.md R82). -/
def mmSource (rex : Option Rex) (len : Nat) (s : State) (rm : Rm) : Except Fault Vec :=
  sourceOperand (fun r => (s.mmReg r).setWidth 512) (mmAccess rex len s) s rm

/-- The source operand of form 2. -/
def xmmSource (rex : Option Rex) (len : Nat) (s : State) (rm : Rm) : Except Fault Vec :=
  sourceOperand (fun r => s.vec (regNumber4 (rexB rex) r)) (xmmAccess rex len s) s rm

/-- Form 1, `PMULUDQ mm1, mm2/m64` (R120). -/
def execPmuludqMm (rex : Option Rex) (reg : BitVec 3) (rm : Rm) (s : State) : Out :=
  let len := Instr.len (.pmuludqMm rex reg rm)
  gated .mm false s <|
    withValue (mmSource rex len s rm) fun src =>
      retire len (s.setMm reg (laneProduct (s.mmReg reg) (lane src 0)))

/-- Form 2, `PMULUDQ xmm1, xmm2/m128` (R121): bits from 128 up keep their values. -/
def execPmuludqXmm (rex : Option Rex) (reg : BitVec 3) (rm : Rm) (s : State) : Out :=
  let len := Instr.len (.pmuludqXmm rex reg rm)
  let d := regNumber4 (rexR rex) reg
  gated .xmm false s <|
    withValue (xmmSource rex len s rm) fun src =>
      retire len (s.setVec d (replaceLow128 (s.vec d) (mulLanes 2 (s.vec d) src)))

end Sys2Proof.Machine
end

