-- ==== Sys2Proof/Machine/Vex.lean ====
section
/-! DEFINITION. Forms 3 and 4, the VEX-encoded VPMULUDQ on XMM and YMM registers (41_vpmuludq_vex.md R130 to R132). -/

namespace Sys2Proof.Machine

/-- The second source operand of a VEX form. -/
def vexSource (lanes : Nat) (vex : Vex) (len : Nat) (s : State) (rm : Rm) : Except Fault Vec :=
  sourceOperand (fun r => s.vec (regNumber4 (vexB vex) r)) (vexAccess lanes vex len s) s rm

/-- Both VEX forms: the products in the low lanes of the destination, every bit above zeroed (R132). -/
def execVex (f : Form) (len : Nat) (vex : Vex) (reg : BitVec 3) (rm : Rm) (s : State) : Out :=
  gated f false s <|
    withValue (vexSource f.lanes vex len s rm) fun src =>
      retire len (s.setVec (regNumber4 (vexR vex) reg) (mulLanes f.lanes (s.vec (vexVNumber vex)) src))

/-- Form 3, `VPMULUDQ xmm1, xmm2, xmm3/m128` (R130). -/
def execVpmuludqVexXmm (vex : Vex) (reg : BitVec 3) (rm : Rm) (s : State) : Out :=
  execVex .vexXmm (Instr.len (.vpmuludqVexXmm vex reg rm)) vex reg rm s

/-- Form 4, `VPMULUDQ ymm1, ymm2, ymm3/m256` (R131). -/
def execVpmuludqVexYmm (vex : Vex) (reg : BitVec 3) (rm : Rm) (s : State) : Out :=
  execVex .vexYmm (Instr.len (.vpmuludqVexYmm vex reg rm)) vex reg rm s

end Sys2Proof.Machine
end

