-- ==== Sys2Proof/Machine/Dispatch.lean ====
section
/-! DEFINITION. Which meaning each instruction has. -/

namespace Sys2Proof.Machine

def exec (i : Instr) (s : State) : Host.Outcome State Fault Refusal :=
  match i with
  | .pmuludqMm rex reg rm => Sys2Proof.Machine.execPmuludqMm rex reg rm s
  | .pmuludqXmm rex reg rm => Sys2Proof.Machine.execPmuludqXmm rex reg rm s
  | .vpmuludqVexXmm vex reg rm => Sys2Proof.Machine.execVpmuludqVexXmm vex reg rm s
  | .vpmuludqVexYmm vex reg rm => Sys2Proof.Machine.execVpmuludqVexYmm vex reg rm s
  | .vpmuludqEvexXmm evex reg rm => Sys2Proof.Machine.execVpmuludqEvexXmm evex reg rm s
  | .vpmuludqEvexYmm evex reg rm => Sys2Proof.Machine.execVpmuludqEvexYmm evex reg rm s
  | .vpmuludqEvexZmm evex reg rm => Sys2Proof.Machine.execVpmuludqEvexZmm evex reg rm s

end Sys2Proof.Machine
end

