-- ==== Sys2Proof/Machine/Step.lean ====
section
/-! DEFINITION. One step of the machine: fetch, decode, execute (30_encoding.md R93, 70_reset_and_hazards.md R226). -/

namespace Sys2Proof.Machine

/-- One step: the instruction at `pc` is executed, or the step ends as the fetch says. -/
def step (s : State) : Host.Outcome State Fault Refusal :=
  match fetch s with
  | .ok i => exec i s
  | .error o => o

/-- The state with an opcode-table word stored at `pc`, where the next step fetches, and the forms enabled as boot software would
have left them (70_reset_and_hazards.md R222; log 4). -/
def State.withFetchWord (s : State) (nbits w : Nat) : State := s.placeTableWord nbits w

end Sys2Proof.Machine
end

