-- ==== Sys2Proof/Machine/Asm.lean ====
section
/-! DEFINITION. An instruction as the assembler's line names it (30_encoding.md R70, R72, R97; 92 D34): mnemonic, writemask, and the operands
with their register numbers, destination first. A view for reading and testing the decoder; the meanings do not use it. -/

namespace Sys2Proof.Machine

/-- The two mnemonics (R97). -/
inductive Mnemonic where
  | pmuludq
  | vpmuludq
  deriving DecidableEq, Repr

/-- A memory operand with its registers by number: `base + index * 2^scale + disp`, or relative to the next instruction. -/
structure AsmMemory where
  base : Option Nat
  index : Option Nat
  scale : Nat
  disp : Int
  ripRelative : Bool
  deriving DecidableEq, Repr

/-- An operand of a line; `bits` is the width fetched, `times` the repetitions of a broadcast element. -/
inductive AsmOperand where
  | mm (n : Nat)
  | xmm (n : Nat)
  | ymm (n : Nat)
  | zmm (n : Nat)
  | mem (bits : Nat) (m : AsmMemory)
  | broadcast (m : AsmMemory) (times : Nat)
  deriving DecidableEq, Repr

/-- A line: `mask` is the number of the writemask register, if one is named. -/
structure AsmLine where
  mnemonic : Mnemonic
  mask : Option Nat
  zeroing : Bool
  operands : List AsmOperand
  deriving DecidableEq, Repr

/-- The memory operand of a line. -/
def asmMemory (c : AddrContext) (m : MemOperand) : AsmMemory :=
  { base := (baseRegister c m).map BitVec.toNat
    index := (indexRegister c m).map BitVec.toNat
    scale := scaleOf m
    disp := (dispOf c m).toInt
    ripRelative := match m with
      | .base _ _ => false
      | .ripRel _ => true
      | .sib _ _ _ _ => false
      | .sibNoBase _ _ _ => false }

/-- The last operand of a line: a register or memory of `bits` bits. -/
def asmSource (ofReg : BitVec 3 → AsmOperand) (c : AddrContext) (bits : Nat) : Rm → AsmOperand
  | .reg rm => ofReg rm
  | .mem m => .mem bits (asmMemory c m)

/-- A line of a legacy form. -/
def asmLegacy (dst src : AsmOperand) : AsmLine :=
  { mnemonic := .pmuludq, mask := none, zeroing := false, operands := [dst, src] }

/-- A line of a VEX form on registers of the kind `r`. -/
def asmVex (r : Nat → AsmOperand) (lanes len : Nat) (vex : Vex) (reg : BitVec 3) (rm : Rm) : AsmLine :=
  { mnemonic := .vpmuludq, mask := none, zeroing := false
    operands := [r (regNumber4 (vexR vex) reg).toNat, r (vexVNumber vex).toNat,
      asmSource (fun n => r (regNumber4 (vexB vex) n).toNat) (vexContext vex len) (64 * lanes) rm] }

/-- A line of an EVEX form on registers of the kind `r`. -/
def asmEvex (r : Nat → AsmOperand) (lanes len : Nat) (e : Evex) (reg : BitVec 3) (rm : Rm) : AsmLine :=
  { mnemonic := .vpmuludq
    mask := if e.aaa = 0#3 then none else some e.aaa.toNat
    zeroing := e.z
    operands := [r (evexRegNumber e reg).toNat, r (evexVNumber e).toNat,
      match rm with
      | .reg n => r (evexRmNumber e n).toNat
      | .mem m =>
        if e.bcst then .broadcast (asmMemory (evexContext lanes e len) m) lanes
        else .mem (64 * lanes) (asmMemory (evexContext lanes e len) m)] }

/-- The line of an instruction. -/
def asmOf : Instr → AsmLine
  | .pmuludqMm rex reg rm =>
    asmLegacy (.mm reg.toNat)
      (asmSource (fun n => .mm n.toNat) (legacyContext rex (Instr.len (.pmuludqMm rex reg rm))) 64 rm)
  | .pmuludqXmm rex reg rm =>
    asmLegacy (.xmm (regNumber4 (rexR rex) reg).toNat)
      (asmSource (fun n => .xmm (regNumber4 (rexB rex) n).toNat)
        (legacyContext rex (Instr.len (.pmuludqXmm rex reg rm))) 128 rm)
  | .vpmuludqVexXmm vex reg rm => asmVex .xmm 2 (Instr.len (.vpmuludqVexXmm vex reg rm)) vex reg rm
  | .vpmuludqVexYmm vex reg rm => asmVex .ymm 4 (Instr.len (.vpmuludqVexYmm vex reg rm)) vex reg rm
  | .vpmuludqEvexXmm e reg rm => asmEvex .xmm 2 (Instr.len (.vpmuludqEvexXmm e reg rm)) e reg rm
  | .vpmuludqEvexYmm e reg rm => asmEvex .ymm 4 (Instr.len (.vpmuludqEvexYmm e reg rm)) e reg rm
  | .vpmuludqEvexZmm e reg rm => asmEvex .zmm 8 (Instr.len (.vpmuludqEvexZmm e reg rm)) e reg rm

/-- The line of the instruction at the start of some bytes, if they spell one. -/
def disassemble (bs : List Byte) : Option AsmLine :=
  match decode bs with
  | .instr i _ => some (asmOf i)
  | .invalid => none
  | .refused _ => none
  | .incomplete => none

end Sys2Proof.Machine
end

