-- ==== Sys2Proof/Safety.lean ====
section
/-! DEFINITION. The terms claims use: when a form is ready to execute, what its operand asks of memory, what an instruction leaves
unchanged, the invariant of the machine, and the end of a run. -/

namespace Sys2Proof.Machine

/-! ## When a form completes -/

/-- The conditions on the state under which a form passes every check before its operands are read (60_exceptions.md R184 to R188):
64-bit mode, no cause of #UD, CR0.TS clear, no pending x87 exception for form 1, and MAXVL wide enough. -/
def State.ready (s : State) (f : Form) : Bool :=
  s.mode64 && !udCondition f false s && !s.ts && !(testsX87 f && s.x87ExceptionPending) &&
    decide (neededMaxVl f ≤ s.cfg.maxvl.bits)

/-- The encodings that raise #UD by themselves (30_encoding.md R94 (h), (i)). -/
def illegalEncoding : Instr → Bool
  | .pmuludqMm _ _ _ => false
  | .pmuludqXmm _ _ _ => false
  | .vpmuludqVexXmm _ _ _ => false
  | .vpmuludqVexYmm _ _ _ => false
  | .vpmuludqEvexXmm e _ rm => evexIllegal e rm
  | .vpmuludqEvexYmm e _ rm => evexIllegal e rm
  | .vpmuludqEvexZmm e _ rm => evexIllegal e rm

/-- `pc + len` stays below 2^64 (10_state.md R30). -/
def State.fallsThrough (s : State) (i : Instr) : Bool := decide (s.pc.toNat + i.len < 2 ^ 64)

/-- The read of memory an instruction asks for: none with a register operand (20_memory.md R50, R51). -/
def accessOfInstr (i : Instr) (s : State) : Option Access :=
  match i.rm with
  | .reg _ => none
  | .mem m =>
    some (match i with
      | .pmuludqMm rex _ _ => mmAccess rex i.len s m
      | .pmuludqXmm rex _ _ => xmmAccess rex i.len s m
      | .vpmuludqVexXmm vex _ _ => vexAccess 2 vex i.len s m
      | .vpmuludqVexYmm vex _ _ => vexAccess 4 vex i.len s m
      | .vpmuludqEvexXmm e _ _ => evexAccess 2 e i.len s m
      | .vpmuludqEvexYmm e _ _ => evexAccess 4 e i.len s m
      | .vpmuludqEvexZmm e _ _ => evexAccess 8 e i.len s m)

/-- A read that no condition of 60_exceptions.md R189 to R191 stops. -/
def Access.permitted (a : Access) (s : State) : Bool :=
  !a.misaligned16 && s.canonicalRange a.addr.toNat a.bytes && s.readableRange a.addr.toNat a.bytes &&
    !(s.alignmentCheckEnabled && a.misaligned8)

/-- The memory operand of an instruction, if it has one, can be read. -/
def operandPermitted (i : Instr) (s : State) : Bool :=
  match accessOfInstr i s with
  | none => true
  | some a => a.permitted s

/-! ## Results -/

/-- The exact product of the low doublewords of two quadwords, as a natural number (00_scope.md R13, 40_pmuludq_legacy.md R110). -/
def dwordProduct (a b : Quad) : Nat := (a.toNat % 2 ^ 32) * (b.toNat % 2 ^ 32)

/-- The number of the vector register an instruction writes, if it writes one. -/
def vecDestination : Instr → Option (BitVec 5)
  | .pmuludqMm _ _ _ => none
  | .pmuludqXmm rex reg _ => some (regNumber4 (rexR rex) reg)
  | .vpmuludqVexXmm vex reg _ => some (regNumber4 (vexR vex) reg)
  | .vpmuludqVexYmm vex reg _ => some (regNumber4 (vexR vex) reg)
  | .vpmuludqEvexXmm e reg _ => some (evexRegNumber e reg)
  | .vpmuludqEvexYmm e reg _ => some (evexRegNumber e reg)
  | .vpmuludqEvexZmm e reg _ => some (evexRegNumber e reg)

/-- The number of the MMX register an instruction writes, if it writes one. -/
def mmDestination : Instr → Option (BitVec 3)
  | .pmuludqMm _ reg _ => some reg
  | .pmuludqXmm _ _ _ => none
  | .vpmuludqVexXmm _ _ _ => none
  | .vpmuludqVexYmm _ _ _ => none
  | .vpmuludqEvexXmm _ _ _ => none
  | .vpmuludqEvexYmm _ _ _ => none
  | .vpmuludqEvexZmm _ _ _ => none

/-! ## Frames -/

/-- Everything but the vector registers, the MMX registers and `pc` is the same, every byte of memory included. -/
def SameElsewhere (s t : State) : Prop :=
  t.cfg = s.cfg ∧ t.mode64 = s.mode64 ∧ t.k = s.k ∧ t.x = s.x ∧ t.rflags = s.rflags ∧ t.mxcsr = s.mxcsr ∧
  t.cr0 = s.cr0 ∧ t.cr2 = s.cr2 ∧ t.cr4 = s.cr4 ∧ t.xcr0 = s.xcr0 ∧ t.cpl = s.cpl ∧
  t.x87ExceptionPending = s.x87ExceptionPending ∧ t.regions = s.regions ∧ t.mem = s.mem ∧
  ∀ a, t.byteAt a = s.byteAt a

/-- Only `V[d]` and `pc` may differ. -/
def OnlyVec (d : BitVec 5) (s t : State) : Prop :=
  (∀ n, n ≠ d → t.vec n = s.vec n) ∧ t.mm = s.mm ∧ SameElsewhere s t

/-- Only `MM[d]` and `pc` may differ. -/
def OnlyMm (d : BitVec 3) (s t : State) : Prop :=
  t.v = s.v ∧ (∀ n, n ≠ d → t.mmReg n = s.mmReg n) ∧ SameElsewhere s t

/-! ## The invariant -/

/-- The machine's invariant: the processor's parameters are consistent (00_scope.md R6, R8), the memory has its canonical form, no
vector register has a bit from MAXVL up, and no register from NVEC up holds anything (10_state.md R20, R21; log 19). -/
def Invariant (s : State) : Prop :=
  s.cfg.consistent = true ∧ Memory.wf s.mem = true ∧
  (∀ n b, s.cfg.maxvl.bits ≤ b → (s.vec n).getLsbD b = false) ∧
  (∀ n, s.nvec ≤ n.toNat → s.vec n = 0)

/-! ## Comparing outcomes -/

/-- Applies a function to the next state of an outcome; a fault or a refusal stays. -/
def mapNext (g : State → State) : Out → Out
  | .next t => .next (g t)
  | .fault f => .fault f
  | .refused r => .refused r

/-- The state with CR0.EM set to a value. -/
def State.withEm (s : State) (b : Bool) : State :=
  { s with cr0 := if b then s.cr0 ||| 4 else s.cr0 &&& ~~~4 }

/-- The state with its opmask registers replaced. -/
def State.withMasks (s : State) (k : Vector Quad 8) : State := { s with k := k }

/-! ## Runs -/

/-- How a run of a program ends (70_reset_and_hazards.md R227). A fault or refusal is given with the state it left, which is the
state before the instruction (60_exceptions.md R196). -/
inductive RunResult where
  | finished (s : State)
  | faulted (f : Fault) (s : State)
  | refused (r : Refusal) (s : State)
  | running (s : State)
  deriving DecidableEq, Repr

/-- A run of at most `n` steps of a program whose last byte is just before `fin`: it is finished when `pc` is `fin`, and what stands
there is not fetched (70_reset_and_hazards.md R227). -/
def runTo (fin : Quad) : Nat → State → RunResult
  | 0, s => if s.pc = fin then .finished s else .running s
  | n + 1, s =>
    if s.pc = fin then .finished s
    else
      match step s with
      | .next t => runTo fin n t
      | .fault f => .faulted f s
      | .refused r => .refused r s

end Sys2Proof.Machine
end

