-- ==== Sys2Proof/Certificates/Slice0/Obligations.lean ====
section
/-! DEFINITION. The statements for the provers, each a Prop named after what it states. The shapes several of them share come first. -/

open Sys2Proof Sys2Proof.Machine

namespace Sys2Proof.Statements

/-! ## Shapes of result statements -/

/-- An executed `pc` moves past the instruction. -/
def Advanced (i : Instr) (s t : State) : Prop := t.pc = s.pc + BitVec.ofNat 64 i.len

/-- The linear address of a memory operand: the function the meanings use, applied to the state before the instruction. -/
def addressOf (i : Instr) (s : State) : Nat :=
  match accessOfInstr i s with
  | none => 0
  | some a => a.addr.toNat

/-- All `n` bytes at an instruction's memory operand are canonical and can be read. -/
def Reaches (i : Instr) (n : Nat) (s : State) : Prop :=
  s.canonicalRange (addressOf i s) n = true ∧ s.readableRange (addressOf i s) n = true

/-- A VEX form with first source `a` and second factor lanes `b` completes with the products in the destination's low lanes and zero
in every bit above. -/
def VexCompletes (i : Instr) (f : Form) (d a : BitVec 5) (b : Nat → Quad) (s : State) : Prop :=
  ∃ t, exec i s = .next t ∧
    (∀ j, j < f.lanes → (lane (t.vec d) j).toNat = dwordProduct (lane (s.vec a) j) (b j)) ∧
    (∀ n, 64 * f.lanes ≤ n → (t.vec d).getLsbD n = false) ∧
    Advanced i s t ∧ OnlyVec d s t

/-- Both sides of a VEX form, register operand and memory operand. -/
def VexRegisterResult (mk : Vex → BitVec 3 → Rm → Instr) (f : Form) : Prop :=
  ∀ vex reg r s, s.ready f = true → s.fallsThrough (mk vex reg (.reg r)) = true →
    VexCompletes (mk vex reg (.reg r)) f (regNumber4 (vexR vex) reg) (vexVNumber vex)
      (fun j => lane (s.vec (regNumber4 (vexB vex) r)) j) s

def VexMemoryResult (mk : Vex → BitVec 3 → Rm → Instr) (f : Form) : Prop :=
  ∀ vex reg m s, s.ready f = true → s.fallsThrough (mk vex reg (.mem m)) = true →
    Reaches (mk vex reg (.mem m)) (8 * f.lanes) s →
    VexCompletes (mk vex reg (.mem m)) f (regNumber4 (vexR vex) reg) (vexVNumber vex)
      (fun j => lane (s.memValue (addressOf (mk vex reg (.mem m)) s) (8 * f.lanes)) j) s

/-- An EVEX form with second factor lanes `b` completes: an active lane holds the product, a masked-off lane its old value under
merging and zero under zeroing, and every bit above the vector length is zero. -/
def EvexCompletes (i : Instr) (f : Form) (e : Evex) (reg : BitVec 3) (b : Nat → Quad) (s : State) : Prop :=
  ∃ t, exec i s = .next t ∧
    (∀ j, j < f.lanes →
      (((e.aaa = 0#3 ∨ (s.opmask e.aaa).getLsbD j = true) →
          (lane (t.vec (evexRegNumber e reg)) j).toNat = dwordProduct (lane (s.vec (evexVNumber e)) j) (b j)) ∧
        ((e.aaa ≠ 0#3 ∧ (s.opmask e.aaa).getLsbD j = false ∧ e.z = false) →
          lane (t.vec (evexRegNumber e reg)) j = lane (s.vec (evexRegNumber e reg)) j) ∧
        ((e.aaa ≠ 0#3 ∧ (s.opmask e.aaa).getLsbD j = false ∧ e.z = true) →
          lane (t.vec (evexRegNumber e reg)) j = 0))) ∧
    (∀ n, 64 * f.lanes ≤ n → (t.vec (evexRegNumber e reg)).getLsbD n = false) ∧
    Advanced i s t ∧ OnlyVec (evexRegNumber e reg) s t

/-- Zeroing is asked for only with a writemask. -/
def MaskingLegal (e : Evex) : Prop := e.z = true → e.aaa ≠ 0#3

def EvexRegisterResult (mk : Evex → BitVec 3 → Rm → Instr) (f : Form) : Prop :=
  ∀ e reg r s, s.ready f = true → MaskingLegal e → e.bcst = false → s.fallsThrough (mk e reg (.reg r)) = true →
    EvexCompletes (mk e reg (.reg r)) f e reg (fun j => lane (s.vec (evexRmNumber e r)) j) s

def EvexMemoryResult (mk : Evex → BitVec 3 → Rm → Instr) (f : Form) : Prop :=
  ∀ e reg m s, s.ready f = true → MaskingLegal e → e.bcst = false → s.fallsThrough (mk e reg (.mem m)) = true →
    Reaches (mk e reg (.mem m)) (8 * f.lanes) s →
    EvexCompletes (mk e reg (.mem m)) f e reg
      (fun j => lane (s.memValue (addressOf (mk e reg (.mem m)) s) (8 * f.lanes)) j) s

def EvexBroadcastResult (mk : Evex → BitVec 3 → Rm → Instr) (f : Form) : Prop :=
  ∀ e reg m s, s.ready f = true → MaskingLegal e → e.bcst = true → s.fallsThrough (mk e reg (.mem m)) = true →
    Reaches (mk e reg (.mem m)) 8 s →
    EvexCompletes (mk e reg (.mem m)) f e reg
      (fun _ => lane (s.memValue (addressOf (mk e reg (.mem m)) s) 8) 0) s

/-- The three EVEX constructors, each with its form. -/
def ForEvexForms (P : (Evex → BitVec 3 → Rm → Instr) → Form → Prop) : Prop :=
  P .vpmuludqEvexXmm .evexXmm ∧ P .vpmuludqEvexYmm .evexYmm ∧ P .vpmuludqEvexZmm .evexZmm

/-- The two VEX constructors, each with its form. -/
def ForVexForms (P : (Vex → BitVec 3 → Rm → Instr) → Form → Prop) : Prop :=
  P .vpmuludqVexXmm .vexXmm ∧ P .vpmuludqVexYmm .vexYmm

/-- No earlier condition stops a form before its operand is read: 64-bit mode, no #UD, #NM or #MF (60_exceptions.md R195 steps 1 to 3). -/
def PassesGate (i : Instr) (s : State) : Prop := s.ready i.form = true ∧ illegalEncoding i = false

/-! ## Addresses, written from the rules of 30_encoding.md by number -/

/-- `Bx` of R86: REX.B or the extension bit of a VEX or EVEX prefix, 0 with none of them. -/
def baseExtension : Instr → Bool
  | .pmuludqMm none _ _ => false
  | .pmuludqMm (some r) _ _ => r.b
  | .pmuludqXmm none _ _ => false
  | .pmuludqXmm (some r) _ _ => r.b
  | .vpmuludqVexXmm (.two _ _) _ _ => false
  | .vpmuludqVexXmm (.three _ _ _ b _) _ _ => b
  | .vpmuludqVexYmm (.two _ _) _ _ => false
  | .vpmuludqVexYmm (.three _ _ _ b _) _ _ => b
  | .vpmuludqEvexXmm e _ _ => e.b
  | .vpmuludqEvexYmm e _ _ => e.b
  | .vpmuludqEvexZmm e _ _ => e.b

/-- `Xx` of R86. -/
def indexExtension : Instr → Bool
  | .pmuludqMm none _ _ => false
  | .pmuludqMm (some r) _ _ => r.x
  | .pmuludqXmm none _ _ => false
  | .pmuludqXmm (some r) _ _ => r.x
  | .vpmuludqVexXmm (.two _ _) _ _ => false
  | .vpmuludqVexXmm (.three _ _ x _ _) _ _ => x
  | .vpmuludqVexYmm (.two _ _) _ _ => false
  | .vpmuludqVexYmm (.three _ _ x _ _) _ _ => x
  | .vpmuludqEvexXmm e _ _ => e.x
  | .vpmuludqEvexYmm e _ _ => e.x
  | .vpmuludqEvexZmm e _ _ => e.x

/-- What R90 multiplies an 8-bit displacement by: 1 in forms 1 to 4, 16, 32 or 64 in forms 5 to 7, or 8 with broadcast. -/
def displacementUnit : Instr → Int
  | .pmuludqMm _ _ _ => 1
  | .pmuludqXmm _ _ _ => 1
  | .vpmuludqVexXmm _ _ _ => 1
  | .vpmuludqVexYmm _ _ _ => 1
  | .vpmuludqEvexXmm e _ _ => if e.bcst then 8 else 16
  | .vpmuludqEvexYmm e _ _ => if e.bcst then 8 else 32
  | .vpmuludqEvexZmm e _ _ => if e.bcst then 8 else 64

/-- `Disp` of R90 as an integer. -/
def displacementOf (unit : Int) : Disp → Int
  | .none => 0
  | .disp8 d => d.toInt * unit
  | .disp32 d => d.toInt

/-- The number of a register, if there is one, from its field and extension bit, and the scale and `Disp` of an operand (R86, R87). -/
structure AddressParts where
  base : Option Nat
  index : Option Nat
  scale : Nat
  disp : Int
  deriving DecidableEq, Repr

/-- R86's index register: number 4 means none. -/
def indexNumber (x : Bool) (index : BitVec 3) : Option Nat :=
  if 8 * x.toNat + index.toNat = 4 then none else some (8 * x.toNat + index.toNat)

/-- The four shapes of a memory operand, for extension bits `b` and `x` (R86, R90). -/
def addressParts (b x : Bool) (unit : Int) : MemOperand → AddressParts
  | .base rm disp => { base := some (8 * b.toNat + rm.toNat), index := none, scale := 0, disp := displacementOf unit disp }
  | .ripRel disp => { base := none, index := none, scale := 0, disp := disp.toInt }
  | .sib scale index base disp =>
    { base := some (8 * b.toNat + base.toNat), index := indexNumber x index, scale := scale.toNat,
      disp := displacementOf unit disp }
  | .sibNoBase scale index disp =>
    { base := none, index := indexNumber x index, scale := scale.toNat, disp := disp.toInt }

/-- The parts of an instruction's memory operand. -/
def partsOf (i : Instr) (m : MemOperand) : AddressParts :=
  addressParts (baseExtension i) (indexExtension i) (displacementUnit i) m

/-- The value of register number `n`, 0 for none. -/
def gprByNumber (s : State) : Option Nat → Nat
  | none => 0
  | some n => (s.gpr (BitVec.ofNat 4 n)).toNat

/-- The context's base, index and scale of every memory operand are those of R86 for extension bits `b` and `x`. -/
def NamesRegisters (c : AddrContext) (b x : Bool) : Prop :=
  ∀ m unit, (baseRegister c m).map BitVec.toNat = (addressParts b x unit m).base ∧
    (indexRegister c m).map BitVec.toNat = (addressParts b x unit m).index ∧ scaleOf m = (addressParts b x unit m).scale

/-- The context's displacement of every memory operand is that of R90, an 8-bit one times `unit`. -/
def HasDisplacement (c : AddrContext) (unit : Int) : Prop :=
  ∀ b x m, (dispOf c m).toInt = (addressParts b x unit m).disp

/-- Two states that differ in nothing but the values of the vector and MMX registers, and in those only in odd doublewords. -/
def SameEvenDwords (s t : State) : Prop :=
  t = { s with v := t.v, mm := t.mm } ∧
  (∀ n j, j < 8 → lowDword (lane (t.vec n) j) = lowDword (lane (s.vec n) j)) ∧
  ∀ n, lowDword (t.mmReg n) = lowDword (s.mmReg n)

end Sys2Proof.Statements

open Sys2Proof.Statements

/-! ## Reset and the invariant -/

/-- The registers of 10_state.md R38 hold after reset the values it lists; RDX's value is not stated there and not stated here. -/
def Obligations.ResetHoldsListedRegisterValues : Prop :=
  (∀ n, State.reset.vec n = 0) ∧ (∀ n, State.reset.mmReg n = 0) ∧ (∀ n, State.reset.opmask n = 0) ∧
  (∀ n, n ≠ 2#4 → State.reset.gpr n = 0) ∧ State.reset.pc = 0xFFF0 ∧ State.reset.rflags = 0x00000002 ∧
  State.reset.cr0 = 0x60000010 ∧ State.reset.em = false ∧ State.reset.ts = false ∧
  State.reset.cr4 = 0 ∧ State.reset.osfxsr = false ∧ State.reset.osxsave = false ∧
  State.reset.xcr0 = 1 ∧ State.reset.mxcsr = 0x1F80 ∧ State.reset.mode64 = false

/-- The state after reset satisfies the invariant (the model's, log 19). -/
def Obligations.ResetSatisfiesInvariant : Prop := Invariant State.reset

/-- Every step keeps the invariant, from every state that satisfies it: consistent parameters, canonical memory, no bit from MAXVL up
and nothing in a register from NVEC up (10_state.md R20, R21; log 19). -/
def Obligations.StepKeepsInvariant : Prop := ∀ s t, Invariant s → step s = .next t → Invariant t

/-! ## Decoding, encoding and the step -/

/-- Words written out from the spec's encodings decode to the lines the spec gives them (30_encoding.md R79, R81, R90; 95_test_vectors.md). -/
def Obligations.SpecWordsDecode : Prop :=
  disassemble [0x0F, 0xF4, 0x5B, 0x08] =
    some { mnemonic := .pmuludq, mask := none, zeroing := false,
           operands := [.mm 3, .mem 64 { base := some 3, index := none, scale := 0, disp := 8, ripRelative := false }] } ∧
  disassemble [0x66, 0x44, 0x0F, 0xF4, 0xC9] =
    some { mnemonic := .pmuludq, mask := none, zeroing := false, operands := [.xmm 9, .xmm 1] } ∧
  disassemble [0xC4, 0x41, 0x2D, 0xF4, 0xCB] =
    some { mnemonic := .vpmuludq, mask := none, zeroing := false, operands := [.ymm 9, .ymm 10, .ymm 11] } ∧
  disassemble [0x62, 0xA1, 0xED, 0x40, 0xF4, 0xCB] =
    some { mnemonic := .vpmuludq, mask := none, zeroing := false, operands := [.zmm 17, .zmm 18, .zmm 19] } ∧
  disassemble [0x62, 0xF1, 0xED, 0x9F, 0xF4, 0x08] =
    some { mnemonic := .vpmuludq, mask := some 7, zeroing := true,
           operands := [.xmm 1, .xmm 2,
             .broadcast { base := some 0, index := none, scale := 0, disp := 0, ripRelative := false } 2] }

/-- Decoding the encoding of a well-formed instruction, whatever bytes follow, gives it back with those bytes. -/
def Obligations.DecodeOfEncodeIsTheInstruction : Prop :=
  ∀ i rest, Instr.WellFormed i = true → decode (encode i ++ rest) = .instr i rest

/-- An instruction the decoder reads is well formed, and its encoding is exactly the bytes it was read from: no bit is dropped. -/
def Obligations.EncodeOfDecodeIsTheBytes : Prop :=
  ∀ bs i rest, decode bs = .instr i rest → Instr.WellFormed i = true ∧ encode i ++ rest = bs

/-- In 64-bit mode, where the readable bytes at `pc` (at most fifteen) decode to an instruction, a step is exec of it, and nothing is
added around it: `pc` is moved by exec itself (30_encoding.md R93; the window of readable bytes is the model's: log 12, 13). -/
def Obligations.StepRunsDecodedInstruction : Prop :=
  ∀ s i rest, s.mode64 = true → decode s.fetchWindow = .instr i rest → step s = exec i s

/-- LOCK before any of the seven forms is an invalid encoding, and a step on it raises #UD (60_exceptions.md R183, 30_encoding.md R94 (a)). -/
def Obligations.LockBeforeAnyFormRaisesUd : Prop :=
  (∀ i rest, Instr.WellFormed i = true → decode (0xF0 :: (encode i ++ rest)) = .invalid) ∧
  ∀ s, s.mode64 = true → decode s.fetchWindow = .invalid → step s = .fault (.invalidOpcode s.pc)

/-- 66, F2, F3, F0 or a REX byte before a VEX or EVEX prefix is an invalid encoding (60_exceptions.md R192, R193). -/
def Obligations.PrefixBeforeVexOrEvexIsInvalid : Prop :=
  ∀ p i rest, Instr.WellFormed i = true → i.form.isVexOrEvex = true →
    (p = 0x66 ∨ p = 0xF2 ∨ p = 0xF3 ∨ p = 0xF0 ∨ (0x40 ≤ p.toNat ∧ p.toNat ≤ 0x4F)) →
    decode (p :: (encode i ++ rest)) = .invalid

/-- F2 or F3 before a legacy form spells no form in scope, and segment overrides, 67 and, before form 2, a repeated 66 are refused
(30_encoding.md R75, R77; 92 D16). -/
def Obligations.RefusedPrefixesAreRefused : Prop :=
  (∀ p i rest, Instr.WellFormed i = true → i.form.isVexOrEvex = false → (p = 0xF2 ∨ p = 0xF3) →
    decode (p :: (encode i ++ rest)) = .refused .repeatPrefix) ∧
  (∀ p i rest, Instr.WellFormed i = true →
    (p = 0x2E ∨ p = 0x36 ∨ p = 0x3E ∨ p = 0x26 ∨ p = 0x64 ∨ p = 0x65 ∨ p = 0x67) →
    decode (p :: (encode i ++ rest)) = .refused .prefixNotAdmitted) ∧
  ∀ rex reg rm rest, Rm.wellFormed rm = true →
    decode (0x66 :: (encode (.pmuludqXmm rex reg rm) ++ rest)) = .refused .prefixNotAdmitted

/-- `EVEX.L'L = 11` raises #UD whatever the other free fields (30_encoding.md R83, R94 (g)), and an EVEX prefix with W = 0 is refused
(R93 step 1, R94 (f)). -/
def Obligations.ReservedEvexFields : Prop :=
  (∀ (e : Evex) reg rm rest, Rm.wellFormed rm = true →
    decode (e.bytes 3#2 ++ [0xF4] ++ encodeRm reg rm ++ rest) = .invalid) ∧
  ∀ (p0 p1 p2 op : Byte) rest, p1.getLsbD 7 = false →
    decode (0x62 :: p0 :: p1 :: p2 :: op :: rest) = .refused .evexFields

/-- Outside 64-bit mode every instruction is refused (30_encoding.md R96; 92 D2). -/
def Obligations.OutsideModeEverythingIsRefused : Prop :=
  ∀ s, s.mode64 = false → step s = .refused .outside64BitMode ∧ ∀ i, exec i s = .refused .outside64BitMode

/-- Fifteen readable bytes at `pc` that begin an instruction and do not end it are an instruction longer than fifteen bytes, and the
step refuses it as 93 U20 says, where a processor raises #GP(0) (30_encoding.md R92, R94 (k); that such bytes are that instruction,
and U20 over R94 (k), is the model's reading, log 13). No instruction in scope comes near: the decoder reads each from between 3 and
11 bytes (R92). -/
def Obligations.OverLongInstructionIsRefused : Prop :=
  (∀ s, s.mode64 = true → s.fetchWindow.length = 15 → decode s.fetchWindow = .incomplete →
    step s = .refused .instructionTooLong) ∧
  ∀ bs i rest, decode bs = .instr i rest → bs.length = i.len + rest.length ∧ 3 ≤ i.len ∧ i.len ≤ 11

/-! ## The lane operation and the operands -/

/-- Every product is exact: the 64-bit wrapping product of the two zero-extended low doublewords is their product as natural
numbers, and it is at most 0xFFFFFFFE00000001. An inference the spec marks as its own (40_pmuludq_legacy.md R111, derived from
R110). -/
def Obligations.LaneProductIsExact : Prop :=
  ∀ a b : Quad, (laneProduct a b).toNat = dwordProduct a b ∧ dwordProduct a b ≤ 0xFFFFFFFE00000001

/-- Register numbers of 30_encoding.md R82 for every prefix scheme: the extension bits of each prefix (0 without REX; B and X 0 in
the two-byte VEX prefix), the operands' numbers, and the base and index numbers of a memory operand. -/
def Obligations.RegisterNumbersFollowTheFields : Prop :=
  (∀ (x : Bool) (n : BitVec 3), (regNumber4 x n).toNat = 8 * x.toNat + n.toNat) ∧
  (∀ vex : Vex, (vexVNumber vex).toNat = (vexV vex).toNat) ∧
  (∀ (e : Evex) (n : BitVec 3), (evexRegNumber e n).toNat = 16 * e.r'.toNat + 8 * e.r.toNat + n.toNat) ∧
  (∀ e : Evex, (evexVNumber e).toNat = 16 * e.v'.toNat + e.vvvv.toNat) ∧
  (∀ (e : Evex) (n : BitVec 3), (evexRmNumber e n).toNat = 16 * e.x.toNat + 8 * e.b.toNat + n.toNat) ∧
  (rexR none = false ∧ rexX none = false ∧ rexB none = false) ∧
  (∀ r : Rex, rexR (some r) = r.r ∧ rexX (some r) = r.x ∧ rexB (some r) = r.b) ∧
  (∀ r vvvv, vexR (.two r vvvv) = r ∧ vexX (.two r vvvv) = false ∧ vexB (.two r vvvv) = false ∧ vexV (.two r vvvv) = vvvv) ∧
  (∀ w r x b vvvv, vexR (.three w r x b vvvv) = r ∧ vexX (.three w r x b vvvv) = x ∧ vexB (.three w r x b vvvv) = b ∧
    vexV (.three w r x b vvvv) = vvvv) ∧
  (∀ rex len, NamesRegisters (legacyContext rex len) (rexB rex) (rexX rex)) ∧
  (∀ vex len, NamesRegisters (vexContext vex len) (vexB vex) (vexX vex)) ∧
  ∀ lanes e len, NamesRegisters (evexContext lanes e len) e.b e.x

/-- `EA = trunc_64(BaseVal + IndexVal * 2^scale + Disp)` for an operand that is not RIP-relative, with 0 for a missing register,
and no form writes a general-purpose register (30_encoding.md R87). Stated for any context over the model's own functions; for
every context, which registers and scale those functions take from each shape of operand (R86); and for every instruction with a
memory operand, over numbers computed from its own fields. -/
def Obligations.EffectiveAddressIsTheTruncatedSum : Prop :=
  (∀ (c : AddrContext) (s : State) (m : MemOperand), (∀ d, m ≠ .ripRel d) →
    (effectiveAddress c s m).toNat =
      ((registerOrZero s (baseRegister c m)).toNat + (registerOrZero s (indexRegister c m)).toNat * 2 ^ scaleOf m +
        (dispOf c m).toNat) % 2 ^ 64) ∧
  (∀ c : AddrContext, NamesRegisters c c.bx c.xx) ∧
  (∀ i s m, i.rm = .mem m → (∀ d, m ≠ .ripRel d) →
    ∃ a, accessOfInstr i s = some a ∧
      (a.addr.toNat : Int) = (gprByNumber s (partsOf i m).base + gprByNumber s (partsOf i m).index * 2 ^ (partsOf i m).scale +
        (partsOf i m).disp) % 2 ^ 64) ∧
  ∀ i s t, exec i s = .next t → t.x = s.x

/-- `EA = trunc_64(pc + len + sext_64(disp32))` for a RIP-relative operand, and the `len` an instruction's operand is computed with is
that instruction's own length (30_encoding.md R88). -/
def Obligations.RipRelativeAddressIsFromTheNextInstruction : Prop :=
  (∀ (c : AddrContext) (s : State) (d : BitVec 32),
    ((effectiveAddress c s (.ripRel d)).toNat : Int) = ((s.pc.toNat : Int) + c.len + d.toInt) % 2 ^ 64) ∧
  ∀ i s d, i.rm = .mem (.ripRel d) →
    ∃ a, accessOfInstr i s = some a ∧ (a.addr.toNat : Int) = ((s.pc.toNat : Int) + i.len + d.toInt) % 2 ^ 64

/-- An operand is reached through SS exactly when it has a base register and that is RSP or RBP; a base extended to R12 or R13, a
RIP-relative operand and a missing base are reached through DS (30_encoding.md R89). The last clause says it of the read each
instruction makes, by the number of its base register. -/
def Obligations.StackSegmentOnlyForRspAndRbp : Prop :=
  (∀ (c : AddrContext) rm disp, segmentOf c (.base rm disp) = .ss ↔ c.bx = false ∧ (rm = 4#3 ∨ rm = 5#3)) ∧
  (∀ (c : AddrContext) scale index base disp,
    segmentOf c (.sib scale index base disp) = .ss ↔ c.bx = false ∧ (base = 4#3 ∨ base = 5#3)) ∧
  (∀ (c : AddrContext) d, segmentOf c (.ripRel d) = .ds) ∧
  (∀ (c : AddrContext) scale index d, segmentOf c (.sibNoBase scale index d) = .ds) ∧
  ∀ i s m, i.rm = .mem m →
    ∃ a, accessOfInstr i s = some a ∧
      a.segment = if (partsOf i m).base = some 4 ∨ (partsOf i m).base = some 5 then .ss else .ds

/-- An 8-bit displacement is sign-extended and, in forms 5 to 7, multiplied by the operand's size, 16, 32 or 64 bytes or 8 with
broadcast; a 32-bit one is four bytes, the least significant first, sign-extended and never scaled; and each of the four shapes of
memory operand takes its own displacement, 0 where it has none (30_encoding.md R86, R90). -/
def Obligations.DisplacementIsScaledOnlyInEvexForms : Prop :=
  (∀ rex len d, (dispValue (legacyContext rex len).disp8Factor (.disp8 d)).toInt = d.toInt) ∧
  (∀ vex len d, (dispValue (vexContext vex len).disp8Factor (.disp8 d)).toInt = d.toInt) ∧
  (∀ (e : Evex) lanes len d, (lanes = 2 ∨ lanes = 4 ∨ lanes = 8) →
    (dispValue (evexContext lanes e len).disp8Factor (.disp8 d)).toInt =
      d.toInt * (if e.bcst then 8 else 8 * (lanes : Int))) ∧
  (∀ n d, (dispValue n (.disp32 d)).toInt = d.toInt) ∧
  (∀ (b0 b1 b2 b3 : Byte) rest, ∃ d, takeDisp32 (b0 :: b1 :: b2 :: b3 :: rest) = some (d, rest) ∧
    d.toNat = b0.toNat + 2 ^ 8 * b1.toNat + 2 ^ 16 * b2.toNat + 2 ^ 24 * b3.toNat) ∧
  (∀ rex len, HasDisplacement (legacyContext rex len) 1) ∧
  (∀ vex len, HasDisplacement (vexContext vex len) 1) ∧
  ∀ (e : Evex) lanes len, (lanes = 2 ∨ lanes = 4 ∨ lanes = 8) →
    HasDisplacement (evexContext lanes e len) (if e.bcst then 8 else 8 * (lanes : Int))

/-- A memory operand is read little-endian: bits [8i+7:8i] are the byte at `addr + i` (20_memory.md R56). -/
def Obligations.MemoryValueIsLittleEndian : Prop :=
  ∀ (s : State) (a n i : Nat), n ≤ 64 → i < n → (s.memValue a n).extractLsb' (8 * i) 8 = s.byteAt (a + i)

/-- Storing bytes: from a canonical memory, each byte below 2^64 then reads as stored, and every address outside the stored bytes
reads as before. No form stores; this is the operation that places a program (log 4). -/
def Obligations.StoredBytesReadBack : Prop :=
  ∀ (s : State) (a : Nat) (bs : List Byte), Memory.wf s.mem = true → a + bs.length ≤ 2 ^ 64 →
    (∀ i, (h : i < bs.length) → (s.storeBytes a bs).byteAt (a + i) = bs[i]) ∧
    ∀ x, (x < a ∨ a + bs.length ≤ x) → (s.storeBytes a bs).byteAt x = s.byteAt x

/-- Canonical memories that read the same everywhere are the same list: the memory holds nothing a read does not show (the form is
the model's: log 7). -/
def Obligations.CanonicalMemoriesAreEqualWhenTheyReadTheSame : Prop :=
  ∀ m m' : List Host.Cell, Memory.wf m = true → Memory.wf m' = true → (∀ a, readCells m a = readCells m' a) → m = m'

/-! ## Results, completion and frames -/

/-- Form 1 with a register operand completes: all 64 bits of the destination are the product, `pc` advances, nothing else changes. -/
def Obligations.MmxRegisterResult : Prop :=
  ∀ rex reg r s, s.ready .mm = true → s.fallsThrough (.pmuludqMm rex reg (.reg r)) = true →
    ∃ t, exec (.pmuludqMm rex reg (.reg r)) s = .next t ∧
      (t.mmReg reg).toNat = dwordProduct (s.mmReg reg) (s.mmReg r) ∧
      Advanced (.pmuludqMm rex reg (.reg r)) s t ∧ OnlyMm reg s t

/-- Form 1 with a memory operand of 8 readable bytes, aligned where alignment checking is on, completes. -/
def Obligations.MmxMemoryResult : Prop :=
  ∀ rex reg m s, s.ready .mm = true → s.fallsThrough (.pmuludqMm rex reg (.mem m)) = true →
    Reaches (.pmuludqMm rex reg (.mem m)) 8 s →
    (s.alignmentCheckEnabled = true → addressOf (.pmuludqMm rex reg (.mem m)) s % 8 = 0) →
    ∃ t, exec (.pmuludqMm rex reg (.mem m)) s = .next t ∧
      (t.mmReg reg).toNat =
        dwordProduct (s.mmReg reg) (lane (s.memValue (addressOf (.pmuludqMm rex reg (.mem m)) s) 8) 0) ∧
      Advanced (.pmuludqMm rex reg (.mem m)) s t ∧ OnlyMm reg s t

/-- Form 2 with a register operand completes: two products in the low lanes, the bits from 128 up kept. -/
def Obligations.XmmRegisterResult : Prop :=
  ∀ rex reg r s, s.ready .xmm = true → s.fallsThrough (.pmuludqXmm rex reg (.reg r)) = true →
    ∃ t, exec (.pmuludqXmm rex reg (.reg r)) s = .next t ∧
      (∀ j, j < 2 → (lane (t.vec (regNumber4 (rexR rex) reg)) j).toNat =
        dwordProduct (lane (s.vec (regNumber4 (rexR rex) reg)) j) (lane (s.vec (regNumber4 (rexB rex) r)) j)) ∧
      (∀ n, 128 ≤ n → (t.vec (regNumber4 (rexR rex) reg)).getLsbD n = (s.vec (regNumber4 (rexR rex) reg)).getLsbD n) ∧
      Advanced (.pmuludqXmm rex reg (.reg r)) s t ∧ OnlyVec (regNumber4 (rexR rex) reg) s t

/-- Form 2 with a memory operand of 16 readable bytes at a multiple of 16 completes. -/
def Obligations.XmmMemoryResult : Prop :=
  ∀ rex reg m s, s.ready .xmm = true → s.fallsThrough (.pmuludqXmm rex reg (.mem m)) = true →
    Reaches (.pmuludqXmm rex reg (.mem m)) 16 s → addressOf (.pmuludqXmm rex reg (.mem m)) s % 16 = 0 →
    ∃ t, exec (.pmuludqXmm rex reg (.mem m)) s = .next t ∧
      (∀ j, j < 2 → (lane (t.vec (regNumber4 (rexR rex) reg)) j).toNat =
        dwordProduct (lane (s.vec (regNumber4 (rexR rex) reg)) j)
          (lane (s.memValue (addressOf (.pmuludqXmm rex reg (.mem m)) s) 16) j)) ∧
      (∀ n, 128 ≤ n → (t.vec (regNumber4 (rexR rex) reg)).getLsbD n = (s.vec (regNumber4 (rexR rex) reg)).getLsbD n) ∧
      Advanced (.pmuludqXmm rex reg (.mem m)) s t ∧ OnlyVec (regNumber4 (rexR rex) reg) s t

/-- Forms 3 and 4 with a register operand. -/
def Obligations.VexRegisterResults : Prop := ForVexForms VexRegisterResult

/-- Forms 3 and 4 with a memory operand at any address whose bytes can be read: no alignment is asked for. -/
def Obligations.VexMemoryResults : Prop := ForVexForms VexMemoryResult

/-- Forms 5 to 7 with a register operand, under every writemask. -/
def Obligations.EvexRegisterResults : Prop := ForEvexForms EvexRegisterResult

/-- Forms 5 to 7 with a full memory operand, under every writemask. -/
def Obligations.EvexMemoryResults : Prop := ForEvexForms EvexMemoryResult

/-- Forms 5 to 7 with a 64-bit memory element broadcast to every lane. -/
def Obligations.EvexBroadcastResults : Prop := ForEvexForms EvexBroadcastResult

/-- When any form completes, exactly: the state is ready for its form, the encoding is legal, the operand can be read, and `pc + len`
stays below 2^64 (60_exceptions.md R195; that readiness asks for a wide enough MAXVL, and the last condition, are the model's:
log 16, 17). -/
def Obligations.FormsCompleteExactlyWhen : Prop :=
  ∀ i s, (∃ t, exec i s = .next t) ↔
    (PassesGate i s ∧ operandPermitted i s = true ∧ s.fallsThrough i = true)

/-- Every form that completes sets `pc` to `pc + len`, one that would complete but for `pc + len` reaching 2^64 is refused (log 17),
and a RIP-relative address starts at the instruction's own `pc + len` (10_state.md R30). -/
def Obligations.PcAdvancesByTheLength : Prop :=
  (∀ i s t, exec i s = .next t → t.pc = s.pc + BitVec.ofNat 64 i.len) ∧
  (∀ i s, PassesGate i s → operandPermitted i s = true → 2 ^ 64 ≤ s.pc.toNat + i.len →
    exec i s = .refused .programWraps) ∧
  (∀ (c : AddrContext) (s : State) (d : BitVec 32),
    effectiveAddress c s (.ripRel d) = (s.pc + BitVec.ofNat 64 c.len) + d.signExtend 64) ∧
  ∀ i s d, i.rm = .mem (.ripRel d) →
    ∃ a, accessOfInstr i s = some a ∧ a.addr = (s.pc + BitVec.ofNat 64 i.len) + d.signExtend 64

/-- Both VEX forms leave zero in every bit of the destination from their vector length up, on every execution that completes
(41_vpmuludq_vex.md R132). -/
def Obligations.VexFormsZeroUpperBits : Prop :=
  (∀ vex reg rm s t n, exec (.vpmuludqVexXmm vex reg rm) s = .next t → 128 ≤ n →
    (t.vec (regNumber4 (vexR vex) reg)).getLsbD n = false) ∧
  ∀ vex reg rm s t n, exec (.vpmuludqVexYmm vex reg rm) s = .next t → 256 ≤ n →
    (t.vec (regNumber4 (vexR vex) reg)).getLsbD n = false

/-- Forms 5 and 6 leave zero in every bit of the destination from their vector length up, whatever the mask and EVEX.z; form 7 has no
bit above it (42_vpmuludq_evex.md R156). -/
def Obligations.EvexFormsZeroUpperBits : Prop :=
  (∀ e reg rm s t n, exec (.vpmuludqEvexXmm e reg rm) s = .next t → 128 ≤ n →
    (t.vec (evexRegNumber e reg)).getLsbD n = false) ∧
  (∀ e reg rm s t n, exec (.vpmuludqEvexYmm e reg rm) s = .next t → 256 ≤ n →
    (t.vec (evexRegNumber e reg)).getLsbD n = false) ∧
  ∀ e reg rm s t n, exec (.vpmuludqEvexZmm e reg rm) s = .next t → s.cfg.maxvl.bits ≤ n →
    (t.vec (evexRegNumber e reg)).getLsbD n = false

/-! ## What does not matter -/

/-- Bits of the chosen opmask register from KL up, and every other opmask register, have no effect on the outcome of an EVEX form;
without a writemask none of the eight has (10_state.md R26, 42_vpmuludq_evex.md R158). -/
def Obligations.OnlyTheLowMaskBitsAreRead : Prop :=
  ForEvexForms fun mk f => ∀ e reg rm s (k : Vector Quad 8),
    (e.aaa ≠ 0#3 → ∀ j, j < f.lanes → (k[e.aaa.toNat]'e.aaa.isLt).getLsbD j = (s.opmask e.aaa).getLsbD j) →
    exec (mk e reg rm) (s.withMasks k) = mapNext (fun t => t.withMasks k) (exec (mk e reg rm) s)

/-- Odd doublewords of the source registers do not affect the result: from two states that differ only in them, a form with a register
operand and no merged lane leaves the same destination lanes (40_pmuludq_legacy.md R113). -/
def Obligations.OddDoublewordsDoNotMatter : Prop :=
  ∀ i r s s' t t', i.rm = .reg r → SameEvenDwords s s' → exec i s = .next t → exec i s' = .next t' →
    (∀ d, mmDestination i = some d → t'.mmReg d = t.mmReg d) ∧
    ∀ d j, vecDestination i = some d → j < i.form.lanes →
      (∀ e reg, i = .vpmuludqEvexXmm e reg (.reg r) ∨ i = .vpmuludqEvexYmm e reg (.reg r) ∨
          i = .vpmuludqEvexZmm e reg (.reg r) →
        e.z = true ∨ e.aaa = 0#3 ∨ (s.opmask e.aaa).getLsbD j = true) →
      lane (t'.vec d) j = lane (t.vec d) j

/-- REX.W, VEX.W, and with a register operand of form 1 every REX bit, are ignored (30_encoding.md R76, R85). -/
def Obligations.IgnoredPrefixBits : Prop :=
  (∀ (r : Rex) b reg rm s, exec (.pmuludqMm (some { r with w := b }) reg rm) s = exec (.pmuludqMm (some r) reg rm) s) ∧
  (∀ (r : Rex) b reg rm s, exec (.pmuludqXmm (some { r with w := b }) reg rm) s = exec (.pmuludqXmm (some r) reg rm) s) ∧
  (∀ w w' r x b vvvv reg rm s, exec (.vpmuludqVexXmm (.three w r x b vvvv) reg rm) s =
    exec (.vpmuludqVexXmm (.three w' r x b vvvv) reg rm) s) ∧
  (∀ w w' r x b vvvv reg rm s, exec (.vpmuludqVexYmm (.three w r x b vvvv) reg rm) s =
    exec (.vpmuludqVexYmm (.three w' r x b vvvv) reg rm) s) ∧
  ∀ (r r' : Rex) reg n s, exec (.pmuludqMm (some r) reg (.reg n)) s = exec (.pmuludqMm (some r') reg (.reg n)) s

/-- With every mask bit below KL set, an EVEX form does what it does without a writemask. An inference the spec marks as its own
(42_vpmuludq_evex.md R157 (c), derived from R150, R154, R156). -/
def Obligations.AllOnesMaskIsNoMask : Prop :=
  ForEvexForms fun mk f => ∀ e reg rm s, (∀ j, j < f.lanes → (s.opmask e.aaa).getLsbD j = true) →
    e.aaa ≠ 0#3 → exec (mk e reg rm) s = exec (mk { e with aaa := 0, z := false } reg rm) s

/-- With every mask bit below KL clear, a completed EVEX form leaves the destination's lanes below VL under merging, and the whole
destination zero under zeroing. An inference the spec marks as its own (42_vpmuludq_evex.md R157 (a), (b), derived from R150, R154,
R156). -/
def Obligations.AllZerosMaskKeepsOrClears : Prop :=
  ForEvexForms fun mk f => ∀ e reg rm s t, e.aaa ≠ 0#3 → (∀ j, j < f.lanes → (s.opmask e.aaa).getLsbD j = false) →
    exec (mk e reg rm) s = .next t →
    (e.z = false → ∀ n, (t.vec (evexRegNumber e reg)).getLsbD n =
      (decide (n < 64 * f.lanes) && (s.vec (evexRegNumber e reg)).getLsbD n)) ∧
    (e.z = true → t.vec (evexRegNumber e reg) = 0)

/-- On the low 128 bits forms 2, 3 and unmasked 5 compute the same function of the same inputs, and forms 4 and unmasked 6 the same
on 256 bits, with the second source in a register or in memory without broadcast. An inference the spec marks as its own
(41_vpmuludq_vex.md R133, derived from R121, R130, R131 and 42_vpmuludq_evex.md R150). -/
def Obligations.FormsAgreeOnTheSameInputs : Prop :=
  (∀ rex vex reg r s t t', exec (.pmuludqXmm rex reg (.reg r)) s = .next t →
    exec (.vpmuludqVexXmm vex reg (.reg r)) s = .next t' →
    vexVNumber vex = regNumber4 (rexR rex) reg → vexR vex = rexR rex → vexB vex = rexB rex →
    (t'.vec (regNumber4 (rexR rex) reg)).extractLsb' 0 128 = (t.vec (regNumber4 (rexR rex) reg)).extractLsb' 0 128) ∧
  (∀ vex e reg r reg' r' s t t', exec (.vpmuludqVexXmm vex reg (.reg r)) s = .next t →
    exec (.vpmuludqEvexXmm e reg' (.reg r')) s = .next t' → e.aaa = 0#3 →
    evexVNumber e = vexVNumber vex → evexRmNumber e r' = regNumber4 (vexB vex) r →
    t'.vec (evexRegNumber e reg') = t.vec (regNumber4 (vexR vex) reg)) ∧
  (∀ vex e reg r reg' r' s t t', exec (.vpmuludqVexYmm vex reg (.reg r)) s = .next t →
    exec (.vpmuludqEvexYmm e reg' (.reg r')) s = .next t' → e.aaa = 0#3 →
    evexVNumber e = vexVNumber vex → evexRmNumber e r' = regNumber4 (vexB vex) r →
    t'.vec (evexRegNumber e reg') = t.vec (regNumber4 (vexR vex) reg)) ∧
  (∀ rex vex reg m m' s t t', exec (.pmuludqXmm rex reg (.mem m)) s = .next t →
    exec (.vpmuludqVexXmm vex reg (.mem m')) s = .next t' →
    vexVNumber vex = regNumber4 (rexR rex) reg → vexR vex = rexR rex →
    addressOf (.vpmuludqVexXmm vex reg (.mem m')) s = addressOf (.pmuludqXmm rex reg (.mem m)) s →
    (t'.vec (regNumber4 (rexR rex) reg)).extractLsb' 0 128 = (t.vec (regNumber4 (rexR rex) reg)).extractLsb' 0 128) ∧
  (∀ vex e reg m reg' m' s t t', exec (.vpmuludqVexXmm vex reg (.mem m)) s = .next t →
    exec (.vpmuludqEvexXmm e reg' (.mem m')) s = .next t' → e.aaa = 0#3 → e.bcst = false →
    evexVNumber e = vexVNumber vex →
    addressOf (.vpmuludqEvexXmm e reg' (.mem m')) s = addressOf (.vpmuludqVexXmm vex reg (.mem m)) s →
    t'.vec (evexRegNumber e reg') = t.vec (regNumber4 (vexR vex) reg)) ∧
  ∀ vex e reg m reg' m' s t t', exec (.vpmuludqVexYmm vex reg (.mem m)) s = .next t →
    exec (.vpmuludqEvexYmm e reg' (.mem m')) s = .next t' → e.aaa = 0#3 → e.bcst = false →
    evexVNumber e = vexVNumber vex →
    addressOf (.vpmuludqEvexYmm e reg' (.mem m')) s = addressOf (.vpmuludqVexYmm vex reg (.mem m)) s →
    t'.vec (evexRegNumber e reg') = t.vec (regNumber4 (vexR vex) reg)

/-! ## Faults -/

/-- A form raises #UD when a CPUID feature flag of its row is 0 (60_exceptions.md R184). -/
def Obligations.MissingFeatureRaisesUd : Prop :=
  ∀ s, s.mode64 = true →
    (s.cfg.sse2 = false → ∀ rex reg rm, exec (.pmuludqMm rex reg rm) s = .fault (.invalidOpcode s.pc) ∧
      exec (.pmuludqXmm rex reg rm) s = .fault (.invalidOpcode s.pc)) ∧
    (s.cfg.avx = false → ∀ vex reg rm, exec (.vpmuludqVexXmm vex reg rm) s = .fault (.invalidOpcode s.pc)) ∧
    (s.cfg.avx2 = false → ∀ vex reg rm, exec (.vpmuludqVexYmm vex reg rm) s = .fault (.invalidOpcode s.pc)) ∧
    ((s.cfg.avx512f = false ∨ s.cfg.avx512vl = false) →
      ∀ e reg rm, exec (.vpmuludqEvexXmm e reg rm) s = .fault (.invalidOpcode s.pc) ∧
        exec (.vpmuludqEvexYmm e reg rm) s = .fault (.invalidOpcode s.pc)) ∧
    (s.cfg.avx512f = false → ∀ e reg rm, exec (.vpmuludqEvexZmm e reg rm) s = .fault (.invalidOpcode s.pc))

/-- A form raises #UD when the operating system has not enabled its state: CR4.OSFXSR for form 2; CR4.OSXSAVE and XCR0[2:1] for forms
3 and 4; those and XCR0[7:5] for forms 5 to 7 (60_exceptions.md R185; the registers as state are the model's choice, log 5). -/
def Obligations.DisabledStateRaisesUd : Prop :=
  ∀ s, s.mode64 = true →
    (s.cr4.getLsbD 9 = false → ∀ rex reg rm, exec (.pmuludqXmm rex reg rm) s = .fault (.invalidOpcode s.pc)) ∧
    ((s.cr4.getLsbD 18 = false ∨ s.xcr0.getLsbD 1 = false ∨ s.xcr0.getLsbD 2 = false) →
      ∀ i, i.form.isVexOrEvex = true → exec i s = .fault (.invalidOpcode s.pc)) ∧
    ((s.xcr0.getLsbD 5 = false ∨ s.xcr0.getLsbD 6 = false ∨ s.xcr0.getLsbD 7 = false) →
      ∀ e reg rm, exec (.vpmuludqEvexXmm e reg rm) s = .fault (.invalidOpcode s.pc) ∧
        exec (.vpmuludqEvexYmm e reg rm) s = .fault (.invalidOpcode s.pc) ∧
        exec (.vpmuludqEvexZmm e reg rm) s = .fault (.invalidOpcode s.pc))

/-- Forms 1 and 2 raise #UD when CR0.EM = 1, and forms 3 to 7 do not test it: setting or clearing it changes nothing else about their
outcome (60_exceptions.md R186). -/
def Obligations.Cr0EmStopsOnlyLegacyForms : Prop :=
  (∀ i s, i.form.isVexOrEvex = false → s.mode64 = true → s.cr0.getLsbD 2 = true →
    exec i s = .fault (.invalidOpcode s.pc)) ∧
  ∀ i s b, i.form.isVexOrEvex = true → exec i (s.withEm b) = mapNext (fun t => t.withEm b) (exec i s)

/-- Every form raises #NM when CR0.TS = 1 and no #UD condition holds (60_exceptions.md R187). -/
def Obligations.Cr0TsRaisesNm : Prop :=
  ∀ i s, s.mode64 = true → udCondition i.form (illegalEncoding i) s = false → s.cr0.getLsbD 3 = true →
    exec i s = .fault (.deviceNotAvailable s.pc)

/-- Form 1 raises #MF when an x87 exception is pending and no #UD or #NM condition comes first; forms 2 to 7 never raise it
(60_exceptions.md R188, R195). -/
def Obligations.PendingX87ExceptionStopsOnlyForm1 : Prop :=
  (∀ rex reg rm s, s.mode64 = true → udCondition .mm false s = false → s.ts = false → s.x87ExceptionPending = true →
    exec (.pmuludqMm rex reg rm) s = .fault (.x87Error s.pc)) ∧
  ∀ i s rip, i.form ≠ .mm → exec i s ≠ .fault (.x87Error rip)

/-- The EVEX encodings with EVEX.b = 1 and a register operand, or EVEX.z = 1 and no writemask, raise #UD in every state of 64-bit mode
(30_encoding.md R84, R94 (h), (i); 92 D17, D18). -/
def Obligations.IllegalEvexCombinationsRaiseUd : Prop :=
  ForEvexForms fun mk _ =>
    (∀ e reg r s, s.mode64 = true → e.bcst = true → exec (mk e reg (.reg r)) s = .fault (.invalidOpcode s.pc)) ∧
    ∀ e reg rm s, s.mode64 = true → e.z = true → e.aaa = 0#3 → exec (mk e reg rm) s = .fault (.invalidOpcode s.pc)

/-- Alignment faults: form 2 raises #GP(0) for an operand not at a multiple of 16; form 1 raises #AC(0) for a readable operand not at a
multiple of 8 when alignment checking is on; forms 2 to 7 never raise #AC (60_exceptions.md R190; the registers and the privilege
level as state, and misalignment before a bad address, are the model's choice: log 5, 6, 15). -/
def Obligations.AlignmentFaults : Prop :=
  (∀ rex reg m s, s.ready .xmm = true → addressOf (.pmuludqXmm rex reg (.mem m)) s % 16 ≠ 0 →
    exec (.pmuludqXmm rex reg (.mem m)) s = .fault (.generalProtection s.pc)) ∧
  (∀ rex reg m s, s.ready .mm = true → Reaches (.pmuludqMm rex reg (.mem m)) 8 s → s.cr0.getLsbD 18 = true →
    s.rflags.getLsbD 18 = true → s.cpl = 3#2 → addressOf (.pmuludqMm rex reg (.mem m)) s % 8 ≠ 0 →
    exec (.pmuludqMm rex reg (.mem m)) s = .fault (.alignmentCheck s.pc)) ∧
  ∀ i s rip, i.form ≠ .mm → exec i s ≠ .fault (.alignmentCheck rip)

/-- An operand with a byte that is not canonical raises #SS(0) through SS and #GP(0) through DS, unless form 2's misalignment comes
first (60_exceptions.md R189, R195; which addresses are canonical and which condition comes first are the model's: log 8, 9, 15). -/
def Obligations.NonCanonicalOperandFaults : Prop :=
  ∀ i s a, PassesGate i s → accessOfInstr i s = some a → a.misaligned16 = false →
    s.canonicalRange a.addr.toNat a.bytes = false →
    (a.segment = .ss → exec i s = .fault (.stackSegment s.pc)) ∧
    (a.segment = .ds → exec i s = .fault (.generalProtection s.pc))

/-- A canonical operand with a byte that cannot be read raises #PF, with some code and some address, whatever the writemask
(60_exceptions.md R191; 20_memory.md R59; which bytes can be read is the model's regions and privilege level: log 6, 10, 21). -/
def Obligations.UnreadableOperandRaisesPf : Prop :=
  ∀ i s a, PassesGate i s → accessOfInstr i s = some a → a.misaligned16 = false →
    s.canonicalRange a.addr.toNat a.bytes = true → s.readableRange a.addr.toNat a.bytes = false →
    ∃ code address, exec i s = .fault (.pageFault s.pc code address)

/-- A register-only form can raise only #UD, #NM and, for form 1, #MF (60_exceptions.md R194). -/
def Obligations.RegisterOnlyFormsRaiseNoMemoryFault : Prop :=
  ∀ i r s f, i.rm = .reg r → exec i s = .fault f →
    f = .invalidOpcode s.pc ∨ f = .deviceNotAvailable s.pc ∨ (i.form = .mm ∧ f = .x87Error s.pc)

/-- Every fault of a step reports the address of the instruction's first byte (10_state.md R29, 60_exceptions.md R197). -/
def Obligations.FaultsReportTheInstructionAddress : Prop := ∀ s f, step s = .fault f → f.rip = s.pc

/-! ## The whole machine -/

/-- No form writes memory: over any run of the machine memory is constant. An inference the spec marks as its own (20_memory.md R54,
derived from R50), and one that holds only where no other agent writes (log 24). -/
def Obligations.MemoryIsConstantAcrossRuns : Prop :=
  ∀ (n : Nat) (s t : State), Sys2Proof.core.run n s = .next t → t.mem = s.mem

/-- No form writes an opmask register (10_state.md R27). -/
def Obligations.NoFormWritesAnOpmaskRegister : Prop :=
  ∀ i s t, exec i s = .next t → t.k = s.k

/-- Over any run, from any state, the flags, MXCSR, the control registers, the general-purpose and opmask registers, the parameters and
memory keep their values: only vector registers, MMX registers and `pc` may change (10_state.md R31, R32, R40; 60_exceptions.md R202).
That memory keeps its value holds only where no other agent writes it (log 24). -/
def Obligations.RunsChangeOnlyVectorAndMmxRegisters : Prop :=
  ∀ (n : Nat) (s t : State), Sys2Proof.core.run n s = .next t → SameElsewhere s t

/-- A program is a straight line: over a run of `n` steps `pc` rises by at least 3 and at most 11 bytes a step, and never wraps
(10_state.md R30, 30_encoding.md R92, 70_reset_and_hazards.md R227). That `pc` does not wrap is the model's: it refuses an
instruction whose `pc + len` reaches 2^64, exactly 2^64 included (log 17). -/
def Obligations.RunsMoveStraightForward : Prop :=
  ∀ (n : Nat) (s t : State), Sys2Proof.core.run n s = .next t →
    s.pc.toNat + 3 * n ≤ t.pc.toNat ∧ t.pc.toNat ≤ s.pc.toNat + 11 * n

/-! ## The parameters -/

/-- The consistent parameters are those of 00_scope.md R6 and R8: MAXVL is 512 with AVX512F, at least 256 with AVX and otherwise 128,
and AVX512VL implies AVX512F, AVX512F AVX2, AVX2 AVX, and AVX SSE2. -/
def Obligations.ConsistentParametersAreThoseOfTheSpec : Prop :=
  ∀ c : Config, c.consistent = true ↔
    (c.avx512f = true → c.maxvl.bits = 512) ∧ (c.avx = true → 256 ≤ c.maxvl.bits) ∧ (c.avx = false → c.maxvl.bits = 128) ∧
    (c.avx512vl = true → c.avx512f = true) ∧ (c.avx512f = true → c.avx2 = true) ∧ (c.avx2 = true → c.avx = true) ∧
    (c.avx = true → c.sse2 = true)
end

