-- ==== Sys2Proof/Laws/Ops.lean ====
section
/-! SUPPORT. For each shared operation, once, everything it can do. -/

namespace Sys2Proof.Machine

/-! ## The checks before a form executes -/

/-- The checks pass exactly when the state is ready, the encoding legal, and the rest answers. -/
theorem gated_next {f : Form} {illegal : Bool} {s t : State} {k : Out} :
    gated f illegal s k = .next t ↔ s.ready f = true ∧ illegal = false ∧ k = .next t := by
  unfold gated State.ready raise
  cases illegal <;> cases hm : s.mode64 <;> cases hu : udCondition f false s <;> cases ht : s.ts <;>
    cases hx : (testsX87 f && s.x87ExceptionPending) <;>
    by_cases hw : s.cfg.maxvl.bits < neededMaxVl f <;>
    simp_all [udCondition, Nat.not_le.mpr, Nat.not_lt.mpr]

/-- A ready state and a legal encoding pass the checks. -/
theorem gated_of_ready {f : Form} {s : State} (k : Out) (h : s.ready f = true) : gated f false s k = k := by
  unfold State.ready at h
  simp only [Bool.and_eq_true, Bool.not_eq_true', decide_eq_true_eq] at h
  obtain ⟨⟨⟨⟨h1, h2⟩, h3⟩, h4⟩, h5⟩ := h
  simp [gated, h1, h2, h3, h4, Nat.not_lt.mpr h5]

/-- The checks read only the parameters, the mode and the control bits. -/
theorem udCondition_congr {f : Form} {illegal : Bool} {s t : State} (hc : t.cfg = s.cfg) (h0 : t.cr0 = s.cr0)
    (h4 : t.cr4 = s.cr4) (hx : t.xcr0 = s.xcr0) : udCondition f illegal t = udCondition f illegal s := by
  cases f <;> simp [udCondition, State.osEnabled, State.em, State.osfxsr, State.osxsave, State.avxStateEnabled,
    State.avx512StateEnabled, hc, h0, h4, hx]

/-! ## Reading an operand -/

/-- A read answers its value exactly when no condition stops it. -/
theorem Access.load_ok {a : Access} {s : State} {v : Vec} :
    a.load s = .ok v ↔ a.fault? s = none ∧ v = s.memValue a.addr.toNat a.bytes := by
  unfold Access.load
  cases h : a.fault? s <;> simp [eq_comm]

/-- No condition stops a permitted read, and only such a read. -/
theorem Access.fault?_eq_none {a : Access} {s : State} : a.fault? s = none ↔ a.permitted s = true := by
  unfold Access.fault? Access.permitted
  cases a.misaligned16 <;> cases s.canonicalRange a.addr.toNat a.bytes <;>
    cases s.readableRange a.addr.toNat a.bytes <;> cases (s.alignmentCheckEnabled && a.misaligned8) <;> simp

/-- A permitted read answers the bytes of memory. -/
theorem Access.load_of_permitted {a : Access} {s : State} (h : a.permitted s = true) :
    a.load s = .ok (s.memValue a.addr.toNat a.bytes) :=
  Access.load_ok.mpr ⟨Access.fault?_eq_none.mpr h, rfl⟩

/-- Going on with a value answers a next state only when there is one. -/
theorem withValue_next {r : Except Fault Vec} {k : Vec → Out} {t : State} :
    withValue r k = .next t ↔ ∃ v, r = .ok v ∧ k v = .next t := by
  cases r <;> simp [withValue]

@[simp] theorem withValue_ok (v : Vec) (k : Vec → Out) : withValue (.ok v) k = k v := rfl
@[simp] theorem withValue_error (f : Fault) (k : Vec → Out) : withValue (.error f) k = .fault f := rfl

/-! ## Completing -/

/-- Completing moves `pc` past the instruction, and only below 2^64. -/
theorem retire_next {len : Nat} {s t : State} :
    retire len s = .next t ↔ s.pc.toNat + len < 2 ^ 64 ∧ t = s.setPc (s.pc + BitVec.ofNat 64 len) := by
  unfold retire
  split
  · next h => exact ⟨fun e => ⟨h, (Host.Outcome.next.inj e).symm⟩, fun e => by rw [e.2]⟩
  · next h => exact ⟨nofun, fun e => absurd e.1 h⟩

/-- Completing below 2^64. -/
theorem retire_of_lt {len : Nat} {s : State} (h : s.pc.toNat + len < 2 ^ 64) :
    retire len s = .next (s.setPc (s.pc + BitVec.ofNat 64 len)) := if_pos h

/-! ## Fetching -/

/-- An instruction is fetched only in 64-bit mode, and it is the decoder's reading of the window at `pc`. -/
theorem fetch_ok {s : State} {i : Instr} :
    fetch s = .ok i ↔ s.mode64 = true ∧ ∃ rest, decode s.fetchWindow = .instr i rest := by
  unfold fetch
  cases hm : s.mode64
  · simp
  · cases hd : decode s.fetchWindow with
    | instr j rest => simp [eq_comm]
    | invalid => simp
    | refused why => simp
    | incomplete => simp; split <;> simp

/-- The window is at most fifteen bytes. -/
theorem bytesFrom_length (s : State) (a n : Nat) : (s.bytesFrom a n).length ≤ n := by
  induction n generalizing a with
  | zero => simp [State.bytesFrom]
  | succ n ih =>
    simp only [State.bytesFrom]
    split
    · simpa using ih (a + 1)
    · simp

end Sys2Proof.Machine
end

