-- ==== Sys2Proof/Laws/State.lean ====
section
/-! SUPPORT. One lemma per field per update of the state, true by rfl, and reading a register after a write. -/

namespace Sys2Proof.Machine

/-! ## setVec -/

@[simp] theorem setVec_cfg (s : State) (n : BitVec 5) (val : Vec) : (s.setVec n val).cfg = s.cfg := rfl
@[simp] theorem setVec_mode64 (s : State) (n : BitVec 5) (val : Vec) : (s.setVec n val).mode64 = s.mode64 := rfl
@[simp] theorem setVec_v (s : State) (n : BitVec 5) (val : Vec) : (s.setVec n val).v = s.v.set n.toNat val n.isLt := rfl
@[simp] theorem setVec_mm (s : State) (n : BitVec 5) (val : Vec) : (s.setVec n val).mm = s.mm := rfl
@[simp] theorem setVec_k (s : State) (n : BitVec 5) (val : Vec) : (s.setVec n val).k = s.k := rfl
@[simp] theorem setVec_x (s : State) (n : BitVec 5) (val : Vec) : (s.setVec n val).x = s.x := rfl
@[simp] theorem setVec_pc (s : State) (n : BitVec 5) (val : Vec) : (s.setVec n val).pc = s.pc := rfl
@[simp] theorem setVec_rflags (s : State) (n : BitVec 5) (val : Vec) : (s.setVec n val).rflags = s.rflags := rfl
@[simp] theorem setVec_mxcsr (s : State) (n : BitVec 5) (val : Vec) : (s.setVec n val).mxcsr = s.mxcsr := rfl
@[simp] theorem setVec_cr0 (s : State) (n : BitVec 5) (val : Vec) : (s.setVec n val).cr0 = s.cr0 := rfl
@[simp] theorem setVec_cr2 (s : State) (n : BitVec 5) (val : Vec) : (s.setVec n val).cr2 = s.cr2 := rfl
@[simp] theorem setVec_cr4 (s : State) (n : BitVec 5) (val : Vec) : (s.setVec n val).cr4 = s.cr4 := rfl
@[simp] theorem setVec_xcr0 (s : State) (n : BitVec 5) (val : Vec) : (s.setVec n val).xcr0 = s.xcr0 := rfl
@[simp] theorem setVec_cpl (s : State) (n : BitVec 5) (val : Vec) : (s.setVec n val).cpl = s.cpl := rfl
@[simp] theorem setVec_x87ExceptionPending (s : State) (n : BitVec 5) (val : Vec) : (s.setVec n val).x87ExceptionPending = s.x87ExceptionPending := rfl
@[simp] theorem setVec_mem (s : State) (n : BitVec 5) (val : Vec) : (s.setVec n val).mem = s.mem := rfl
@[simp] theorem setVec_regions (s : State) (n : BitVec 5) (val : Vec) : (s.setVec n val).regions = s.regions := rfl

/-! ## setMm -/

@[simp] theorem setMm_cfg (s : State) (n : BitVec 3) (val : Quad) : (s.setMm n val).cfg = s.cfg := rfl
@[simp] theorem setMm_mode64 (s : State) (n : BitVec 3) (val : Quad) : (s.setMm n val).mode64 = s.mode64 := rfl
@[simp] theorem setMm_v (s : State) (n : BitVec 3) (val : Quad) : (s.setMm n val).v = s.v := rfl
@[simp] theorem setMm_mm (s : State) (n : BitVec 3) (val : Quad) : (s.setMm n val).mm = s.mm.set n.toNat val n.isLt := rfl
@[simp] theorem setMm_k (s : State) (n : BitVec 3) (val : Quad) : (s.setMm n val).k = s.k := rfl
@[simp] theorem setMm_x (s : State) (n : BitVec 3) (val : Quad) : (s.setMm n val).x = s.x := rfl
@[simp] theorem setMm_pc (s : State) (n : BitVec 3) (val : Quad) : (s.setMm n val).pc = s.pc := rfl
@[simp] theorem setMm_rflags (s : State) (n : BitVec 3) (val : Quad) : (s.setMm n val).rflags = s.rflags := rfl
@[simp] theorem setMm_mxcsr (s : State) (n : BitVec 3) (val : Quad) : (s.setMm n val).mxcsr = s.mxcsr := rfl
@[simp] theorem setMm_cr0 (s : State) (n : BitVec 3) (val : Quad) : (s.setMm n val).cr0 = s.cr0 := rfl
@[simp] theorem setMm_cr2 (s : State) (n : BitVec 3) (val : Quad) : (s.setMm n val).cr2 = s.cr2 := rfl
@[simp] theorem setMm_cr4 (s : State) (n : BitVec 3) (val : Quad) : (s.setMm n val).cr4 = s.cr4 := rfl
@[simp] theorem setMm_xcr0 (s : State) (n : BitVec 3) (val : Quad) : (s.setMm n val).xcr0 = s.xcr0 := rfl
@[simp] theorem setMm_cpl (s : State) (n : BitVec 3) (val : Quad) : (s.setMm n val).cpl = s.cpl := rfl
@[simp] theorem setMm_x87ExceptionPending (s : State) (n : BitVec 3) (val : Quad) : (s.setMm n val).x87ExceptionPending = s.x87ExceptionPending := rfl
@[simp] theorem setMm_mem (s : State) (n : BitVec 3) (val : Quad) : (s.setMm n val).mem = s.mem := rfl
@[simp] theorem setMm_regions (s : State) (n : BitVec 3) (val : Quad) : (s.setMm n val).regions = s.regions := rfl

/-! ## setPc -/

@[simp] theorem setPc_cfg (s : State) (val : Quad) : (s.setPc val).cfg = s.cfg := rfl
@[simp] theorem setPc_mode64 (s : State) (val : Quad) : (s.setPc val).mode64 = s.mode64 := rfl
@[simp] theorem setPc_v (s : State) (val : Quad) : (s.setPc val).v = s.v := rfl
@[simp] theorem setPc_mm (s : State) (val : Quad) : (s.setPc val).mm = s.mm := rfl
@[simp] theorem setPc_k (s : State) (val : Quad) : (s.setPc val).k = s.k := rfl
@[simp] theorem setPc_x (s : State) (val : Quad) : (s.setPc val).x = s.x := rfl
@[simp] theorem setPc_pc (s : State) (val : Quad) : (s.setPc val).pc = val := rfl
@[simp] theorem setPc_rflags (s : State) (val : Quad) : (s.setPc val).rflags = s.rflags := rfl
@[simp] theorem setPc_mxcsr (s : State) (val : Quad) : (s.setPc val).mxcsr = s.mxcsr := rfl
@[simp] theorem setPc_cr0 (s : State) (val : Quad) : (s.setPc val).cr0 = s.cr0 := rfl
@[simp] theorem setPc_cr2 (s : State) (val : Quad) : (s.setPc val).cr2 = s.cr2 := rfl
@[simp] theorem setPc_cr4 (s : State) (val : Quad) : (s.setPc val).cr4 = s.cr4 := rfl
@[simp] theorem setPc_xcr0 (s : State) (val : Quad) : (s.setPc val).xcr0 = s.xcr0 := rfl
@[simp] theorem setPc_cpl (s : State) (val : Quad) : (s.setPc val).cpl = s.cpl := rfl
@[simp] theorem setPc_x87ExceptionPending (s : State) (val : Quad) : (s.setPc val).x87ExceptionPending = s.x87ExceptionPending := rfl
@[simp] theorem setPc_mem (s : State) (val : Quad) : (s.setPc val).mem = s.mem := rfl
@[simp] theorem setPc_regions (s : State) (val : Quad) : (s.setPc val).regions = s.regions := rfl

/-! ## Reading registers and memory after an update -/

theorem setVec_vec (s : State) (n m : BitVec 5) (val : Vec) :
    (s.setVec n val).vec m = if m = n then val else s.vec m := by
  unfold State.vec
  simp only [setVec_v, Vector.getElem_set]
  by_cases h : m = n
  · simp [h]
  · have hne : ¬n.toNat = m.toNat := fun h' => h (BitVec.eq_of_toNat_eq h'.symm)
    simp [h, hne]

@[simp] theorem setVec_vec_self (s : State) (n : BitVec 5) (val : Vec) : (s.setVec n val).vec n = val := by
  simp [setVec_vec]

theorem setVec_vec_of_ne (s : State) (n m : BitVec 5) (val : Vec) (h : m ≠ n) : (s.setVec n val).vec m = s.vec m := by
  simp [setVec_vec, h]

theorem setMm_mmReg (s : State) (n m : BitVec 3) (val : Quad) :
    (s.setMm n val).mmReg m = if m = n then val else s.mmReg m := by
  unfold State.mmReg
  simp only [setMm_mm, Vector.getElem_set]
  by_cases h : m = n
  · simp [h]
  · have hne : ¬n.toNat = m.toNat := fun h' => h (BitVec.eq_of_toNat_eq h'.symm)
    simp [h, hne]

@[simp] theorem setMm_mmReg_self (s : State) (n : BitVec 3) (val : Quad) : (s.setMm n val).mmReg n = val := by
  simp [setMm_mmReg]

theorem setMm_mmReg_of_ne (s : State) (n m : BitVec 3) (val : Quad) (h : m ≠ n) :
    (s.setMm n val).mmReg m = s.mmReg m := by
  simp [setMm_mmReg, h]

@[simp] theorem setMm_vec (s : State) (n : BitVec 3) (val : Quad) (m : BitVec 5) : (s.setMm n val).vec m = s.vec m := rfl
@[simp] theorem setPc_vec (s : State) (val : Quad) (m : BitVec 5) : (s.setPc val).vec m = s.vec m := rfl
@[simp] theorem setVec_mmReg (s : State) (n : BitVec 5) (val : Vec) (m : BitVec 3) :
    (s.setVec n val).mmReg m = s.mmReg m := rfl
@[simp] theorem setPc_mmReg (s : State) (val : Quad) (m : BitVec 3) : (s.setPc val).mmReg m = s.mmReg m := rfl
@[simp] theorem setVec_opmask (s : State) (n : BitVec 5) (val : Vec) (m : BitVec 3) :
    (s.setVec n val).opmask m = s.opmask m := rfl
@[simp] theorem setMm_opmask (s : State) (n : BitVec 3) (val : Quad) (m : BitVec 3) :
    (s.setMm n val).opmask m = s.opmask m := rfl
@[simp] theorem setPc_opmask (s : State) (val : Quad) (m : BitVec 3) : (s.setPc val).opmask m = s.opmask m := rfl
@[simp] theorem setVec_gpr (s : State) (n : BitVec 5) (val : Vec) (m : BitVec 4) :
    (s.setVec n val).gpr m = s.gpr m := rfl
@[simp] theorem setMm_gpr (s : State) (n : BitVec 3) (val : Quad) (m : BitVec 4) :
    (s.setMm n val).gpr m = s.gpr m := rfl
@[simp] theorem setPc_gpr (s : State) (val : Quad) (m : BitVec 4) : (s.setPc val).gpr m = s.gpr m := rfl
@[simp] theorem setVec_byteAt (s : State) (n : BitVec 5) (val : Vec) (a : Nat) :
    (s.setVec n val).byteAt a = s.byteAt a := rfl
@[simp] theorem setMm_byteAt (s : State) (n : BitVec 3) (val : Quad) (a : Nat) :
    (s.setMm n val).byteAt a = s.byteAt a := rfl
@[simp] theorem setPc_byteAt (s : State) (val : Quad) (a : Nat) : (s.setPc val).byteAt a = s.byteAt a := rfl
@[simp] theorem setVec_nvec (s : State) (n : BitVec 5) (val : Vec) : (s.setVec n val).nvec = s.nvec := rfl
@[simp] theorem setMm_nvec (s : State) (n : BitVec 3) (val : Quad) : (s.setMm n val).nvec = s.nvec := rfl
@[simp] theorem setPc_nvec (s : State) (val : Quad) : (s.setPc val).nvec = s.nvec := rfl

end Sys2Proof.Machine
end

