-- ==== Sys2Proof/Laws/Exec.lean ====
section
/-! SUPPORT. What each meaning can do when it answers a next state, said once: the checks passed, the source operand was read, and the
next state is the destination written and `pc` advanced. -/

namespace Sys2Proof.Machine

/-- `pc` advanced past an instruction. -/
def State.advance (s : State) (len : Nat) : State := s.setPc (s.pc + BitVec.ofNat 64 len)

/-- Form 1 answers a next state exactly so. -/
theorem execPmuludqMm_next {rex : Option Rex} {reg : BitVec 3} {rm : Rm} {s t : State} :
    execPmuludqMm rex reg rm s = .next t ↔ s.ready .mm = true ∧
      s.fallsThrough (.pmuludqMm rex reg rm) = true ∧
      ∃ src, mmSource rex (Instr.len (.pmuludqMm rex reg rm)) s rm = .ok src ∧
        t = (s.setMm reg (laneProduct (s.mmReg reg) (lane src 0))).advance (Instr.len (.pmuludqMm rex reg rm)) := by
  simp only [execPmuludqMm, gated_next, withValue_next, retire_next, State.fallsThrough, decide_eq_true_eq, setMm_pc,
    State.advance]
  constructor
  · rintro ⟨hr, -, src, hs, hp, ht⟩
    exact ⟨hr, hp, src, hs, ht⟩
  · rintro ⟨hr, hp, src, hs, ht⟩
    exact ⟨hr, trivial, src, hs, hp, ht⟩

/-- Form 2 answers a next state exactly so. -/
theorem execPmuludqXmm_next {rex : Option Rex} {reg : BitVec 3} {rm : Rm} {s t : State} :
    execPmuludqXmm rex reg rm s = .next t ↔ s.ready .xmm = true ∧
      s.fallsThrough (.pmuludqXmm rex reg rm) = true ∧
      ∃ src, xmmSource rex (Instr.len (.pmuludqXmm rex reg rm)) s rm = .ok src ∧
        t = (s.setVec (regNumber4 (rexR rex) reg) (replaceLow128 (s.vec (regNumber4 (rexR rex) reg))
          (mulLanes 2 (s.vec (regNumber4 (rexR rex) reg)) src))).advance (Instr.len (.pmuludqXmm rex reg rm)) := by
  simp only [execPmuludqXmm, gated_next, withValue_next, retire_next, State.fallsThrough, decide_eq_true_eq, setVec_pc,
    State.advance]
  constructor
  · rintro ⟨hr, -, src, hs, hp, ht⟩
    exact ⟨hr, hp, src, hs, ht⟩
  · rintro ⟨hr, hp, src, hs, ht⟩
    exact ⟨hr, trivial, src, hs, hp, ht⟩

/-- A VEX form answers a next state exactly so. -/
theorem execVex_next {f : Form} {len : Nat} {vex : Vex} {reg : BitVec 3} {rm : Rm} {s t : State} :
    execVex f len vex reg rm s = .next t ↔ s.ready f = true ∧ s.pc.toNat + len < 2 ^ 64 ∧
      ∃ src, vexSource f.lanes vex len s rm = .ok src ∧
        t = (s.setVec (regNumber4 (vexR vex) reg) (mulLanes f.lanes (s.vec (vexVNumber vex)) src)).advance len := by
  simp only [execVex, gated_next, withValue_next, retire_next, setVec_pc, State.advance]
  constructor
  · rintro ⟨hr, -, src, hs, hp, ht⟩
    exact ⟨hr, hp, src, hs, ht⟩
  · rintro ⟨hr, hp, src, hs, ht⟩
    exact ⟨hr, trivial, src, hs, hp, ht⟩

/-- An EVEX form answers a next state exactly so. -/
theorem execEvex_next {f : Form} {len : Nat} {e : Evex} {reg : BitVec 3} {rm : Rm} {s t : State} :
    execEvex f len e reg rm s = .next t ↔ s.ready f = true ∧ evexIllegal e rm = false ∧ s.pc.toNat + len < 2 ^ 64 ∧
      ∃ src, evexSource f.lanes e len s rm = .ok src ∧
        t = (s.setVec (evexRegNumber e reg) (evexResult f.lanes e reg rm s src)).advance len := by
  simp only [execEvex, gated_next, withValue_next, retire_next, setVec_pc, State.advance]
  constructor
  · rintro ⟨hr, hi, src, hs, hp, ht⟩
    exact ⟨hr, hi, hp, src, hs, ht⟩
  · rintro ⟨hr, hi, hp, src, hs, ht⟩
    exact ⟨hr, hi, src, hs, hp, ht⟩

/-- What any instruction can do: it writes one MMX register or one vector register, and advances `pc`. -/
theorem exec_next {i : Instr} {s t : State} (h : exec i s = .next t) :
    s.ready i.form = true ∧ illegalEncoding i = false ∧ s.pc.toNat + i.len < 2 ^ 64 ∧
      ((∃ d q, mmDestination i = some d ∧ t = (s.setMm d q).advance i.len) ∨
        (∃ d val, vecDestination i = some d ∧ t = (s.setVec d val).advance i.len)) := by
  cases i with
  | pmuludqMm rex reg rm =>
    obtain ⟨hr, hp, src, -, ht⟩ := execPmuludqMm_next.mp h
    exact ⟨hr, rfl, of_decide_eq_true hp, .inl ⟨_, _, rfl, ht⟩⟩
  | pmuludqXmm rex reg rm =>
    obtain ⟨hr, hp, src, -, ht⟩ := execPmuludqXmm_next.mp h
    exact ⟨hr, rfl, of_decide_eq_true hp, .inr ⟨_, _, rfl, ht⟩⟩
  | vpmuludqVexXmm vex reg rm =>
    obtain ⟨hr, hp, src, -, ht⟩ := execVex_next.mp h
    exact ⟨hr, rfl, hp, .inr ⟨_, _, rfl, ht⟩⟩
  | vpmuludqVexYmm vex reg rm =>
    obtain ⟨hr, hp, src, -, ht⟩ := execVex_next.mp h
    exact ⟨hr, rfl, hp, .inr ⟨_, _, rfl, ht⟩⟩
  | vpmuludqEvexXmm e reg rm =>
    obtain ⟨hr, hi, hp, src, -, ht⟩ := execEvex_next.mp h
    exact ⟨hr, hi, hp, .inr ⟨_, _, rfl, ht⟩⟩
  | vpmuludqEvexYmm e reg rm =>
    obtain ⟨hr, hi, hp, src, -, ht⟩ := execEvex_next.mp h
    exact ⟨hr, hi, hp, .inr ⟨_, _, rfl, ht⟩⟩
  | vpmuludqEvexZmm e reg rm =>
    obtain ⟨hr, hi, hp, src, -, ht⟩ := execEvex_next.mp h
    exact ⟨hr, hi, hp, .inr ⟨_, _, rfl, ht⟩⟩

/-- A step that goes on executed an instruction the window decodes to. -/
theorem step_next {s t : State} (h : step s = .next t) :
    ∃ i rest, s.mode64 = true ∧ decode s.fetchWindow = .instr i rest ∧ exec i s = .next t := by
  unfold step at h
  cases hf : fetch s with
  | ok i =>
    obtain ⟨hm, rest, hd⟩ := fetch_ok.mp hf
    exact ⟨i, rest, hm, hd, by simpa [hf] using h⟩
  | error o =>
    rw [hf] at h
    simp only at h
    subst h
    unfold fetch at hf
    split at hf
    · simp at hf
    · split at hf
      · simp at hf
      · simp [raise] at hf
      · simp at hf
      · split at hf <;> simp at hf

end Sys2Proof.Machine
end

