-- ==== Sys2Proof/Laws/Faults.lean ====
section
/-! SUPPORT. What each shared operation, and exec, can do when it faults, said once: which condition held and which fault it is. -/

namespace Sys2Proof.Machine

/-! ## The shared operations -/

/-- Completing never faults. -/
theorem retire_ne_fault {len : Nat} {s : State} {e : Fault} : retire len s ≠ .fault e := by
  unfold retire
  split <;> simp

/-- Going on with a value faults only in the read or in what follows it. -/
theorem withValue_fault {r : Except Fault Vec} {k : Vec → Out} {e : Fault} :
    withValue r k = .fault e ↔ r = .error e ∨ ∃ v, r = .ok v ∧ k v = .fault e := by
  cases r <;> simp [withValue]

/-- A read answers a fault exactly when a condition stops it, and that fault. -/
theorem Access.load_error {a : Access} {s : State} {e : Fault} : a.load s = .error e ↔ a.fault? s = some e := by
  unfold Access.load
  cases a.fault? s <;> simp

/-- The conditions that stop a read, each with its fault. -/
theorem Access.fault?_cases {a : Access} {s : State} {e : Fault} (h : a.fault? s = some e) :
    (a.misaligned16 = true ∧ e = .generalProtection s.pc) ∨
    (s.canonicalRange a.addr.toNat a.bytes = false ∧ e = a.segment.addressFault s.pc) ∨
    (s.readableRange a.addr.toNat a.bytes = false ∧ ∃ code address, e = .pageFault s.pc code address) ∨
    (s.alignmentCheckEnabled = true ∧ a.misaligned8 = true ∧ e = .alignmentCheck s.pc) := by
  unfold Access.fault? at h
  split at h
  · next h16 => exact .inl ⟨h16, (Option.some.inj h).symm⟩
  split at h
  · next hc => exact .inr (.inl ⟨by simpa using hc, (Option.some.inj h).symm⟩)
  split at h
  · next hr => exact .inr (.inr (.inl ⟨by simpa using hr, _, _, (Option.some.inj h).symm⟩))
  split at h
  · next h8 =>
    simp only [Bool.and_eq_true] at h8
    exact .inr (.inr (.inr ⟨h8.1, h8.2, (Option.some.inj h).symm⟩))
  · exact nomatch h

/-- The checks fault with #UD, #NM or #MF, or pass and leave the fault to the rest of the form. -/
theorem gated_fault {f : Form} {illegal : Bool} {s : State} {k : Out} {e : Fault} (h : gated f illegal s k = .fault e) :
    (udCondition f illegal s = true ∧ e = .invalidOpcode s.pc) ∨
    (s.ts = true ∧ e = .deviceNotAvailable s.pc) ∨
    (testsX87 f = true ∧ s.x87ExceptionPending = true ∧ e = .x87Error s.pc) ∨
    k = .fault e := by
  unfold gated raise at h
  split at h
  · exact nomatch h
  split at h
  · next hu => exact .inl ⟨hu, (Host.Outcome.fault.inj h).symm⟩
  split at h
  · next ht => exact .inr (.inl ⟨ht, (Host.Outcome.fault.inj h).symm⟩)
  split at h
  · next hx =>
    simp only [Bool.and_eq_true] at hx
    exact .inr (.inr (.inl ⟨hx.1, hx.2, (Host.Outcome.fault.inj h).symm⟩))
  split at h
  · exact nomatch h
  · exact .inr (.inr (.inr h))

/-! ## A condition that stops every form -/

/-- A #UD condition stops the checks before every other. -/
theorem gated_of_ud {f : Form} {illegal : Bool} {s : State} (k : Out) (hm : s.mode64 = true)
    (hu : udCondition f illegal s = true) : gated f illegal s k = .fault (.invalidOpcode s.pc) := by
  simp [gated, raise, hm, hu]

/-- CR0.TS stops the checks once no #UD condition holds. -/
theorem gated_of_ts {f : Form} {illegal : Bool} {s : State} (k : Out) (hm : s.mode64 = true)
    (hu : udCondition f illegal s = false) (ht : s.ts = true) :
    gated f illegal s k = .fault (.deviceNotAvailable s.pc) := by
  simp [gated, raise, hm, hu, ht]

/-! ## Every instruction -/

/-- The shape of every meaning: the checks, then the operand's read if it is in memory, then completing on a state with `pc` still
at the instruction. -/
theorem exec_shape (i : Instr) (s : State) : ∃ k, exec i s = gated i.form (illegalEncoding i) s k ∧
    (accessOfInstr i s = none → ∃ t, k = retire i.len t ∧ t.pc = s.pc) ∧
    ∀ a, accessOfInstr i s = some a →
      ∃ g : Vec → State, k = withValue (a.load s) (fun v => retire i.len (g v)) ∧ ∀ v, (g v).pc = s.pc := by
  cases i <;> rename_i rm <;> refine ⟨_, rfl, ?_, ?_⟩ <;> cases rm <;>
    simp only [accessOfInstr, Instr.rm, reduceCtorEq, forall_const, Option.some.injEq, forall_eq', IsEmpty.forall_iff,
      implies_true] <;>
    exact ⟨_, rfl, by intros; rfl⟩

/-- Why an instruction faults: a #UD condition, CR0.TS, a pending x87 exception, or its operand's read. -/
theorem exec_fault {i : Instr} {s : State} {e : Fault} (h : exec i s = .fault e) :
    (udCondition i.form (illegalEncoding i) s = true ∧ e = .invalidOpcode s.pc) ∨
    (s.ts = true ∧ e = .deviceNotAvailable s.pc) ∨
    (testsX87 i.form = true ∧ s.x87ExceptionPending = true ∧ e = .x87Error s.pc) ∨
    ∃ a, accessOfInstr i s = some a ∧ a.fault? s = some e := by
  obtain ⟨k, hk, hreg, hmem⟩ := exec_shape i s
  rcases gated_fault (hk ▸ h) with hu | ht | hx | hk'
  · exact .inl hu
  · exact .inr (.inl ht)
  · exact .inr (.inr (.inl hx))
  · refine .inr (.inr (.inr ?_))
    cases ha : accessOfInstr i s with
    | none =>
      obtain ⟨t, ht, -⟩ := hreg ha
      exact absurd (ht ▸ hk') retire_ne_fault
    | some a =>
      obtain ⟨g, hg, -⟩ := hmem a ha
      rcases withValue_fault.mp (hg ▸ hk') with he | ⟨v, -, hr⟩
      · exact ⟨a, rfl, Access.load_error.mp he⟩
      · exact absurd hr retire_ne_fault

end Sys2Proof.Machine
end

