-- ==== Sys2Proof/Laws/Lanes.lean ====
section
/-! SUPPORT. What packing fields and taking lanes do, bit by bit and lane by lane. -/

namespace Sys2Proof.Machine

/-- Every bit of packed fields: bit `b` is bit `b % w` of field `b / w`, and zero above the last field. -/
theorem pack_getLsbD (w : Nat) (f : Nat → BitVec w) (hw : 0 < w) : ∀ (n b : Nat), w * n ≤ 512 →
    (pack w f n).getLsbD b = (decide (b < w * n) && (f (b / w)).getLsbD (b % w))
  | 0, b, _ => by simp [pack]
  | n + 1, b, h => by
    have hn : w * n + w ≤ 512 := by rw [Nat.mul_succ] at h; exact h
    simp only [pack, BitVec.getLsbD_or, BitVec.getLsbD_shiftLeft, BitVec.getLsbD_setWidth,
      pack_getLsbD w f hw n b (by omega), Nat.mul_succ]
    by_cases h1 : b < w * n
    · have : b < w * n + w := by omega
      simp [h1, this]
    · by_cases h2 : b < w * n + w
      · have hdiv : b / w = n := by
          rw [Nat.div_eq_iff hw]
          have := Nat.mul_comm w n
          constructor <;> omega
        have hmod : b % w = b - w * n := by rw [Nat.mod_eq_sub, hdiv]
        have h3 : b < 512 := by omega
        have h4 : b - w * n < 512 := by omega
        simp [h1, h2, h3, h4, hdiv, hmod]
      · have h5 : (f n).getLsbD (b - w * n) = false := BitVec.getLsbD_of_ge _ _ (by omega)
        simp [h1, h2, h5]

/-- Field `j` of packed fields. -/
theorem pack_field {w : Nat} (f : Nat → BitVec w) {n j : Nat} (hw : 0 < w) (hn : w * n ≤ 512) (hj : j < n) :
    (pack w f n).extractLsb' (w * j) w = f j := by
  apply BitVec.eq_of_getLsbD_eq
  intro i hi
  have hlt : w * j + i < w * n := by
    calc w * j + i < w * j + w := by omega
      _ = w * (j + 1) := by rw [Nat.mul_succ]
      _ ≤ w * n := Nat.mul_le_mul_left w hj
  have hdiv : (w * j + i) / w = j := by rw [Nat.mul_add_div hw, Nat.div_eq_of_lt hi, Nat.add_zero]
  have hmod : (w * j + i) % w = i := by rw [Nat.mul_add_mod, Nat.mod_eq_of_lt hi]
  simp [pack_getLsbD w f hw n _ hn, hi, hlt, hdiv, hmod]

/-- No bit above the last field is set. -/
theorem pack_above {w : Nat} (f : Nat → BitVec w) {n b : Nat} (hw : 0 < w) (hn : w * n ≤ 512) (hb : w * n ≤ b) :
    (pack w f n).getLsbD b = false := by
  simp [pack_getLsbD w f hw n b hn, Nat.not_lt.mpr hb]

/-- Lane `j` of packed lanes. -/
theorem lane_pack (f : Nat → Quad) {n j : Nat} (hn : n ≤ 8) (hj : j < n) : lane (pack 64 f n) j = f j :=
  pack_field f (by decide) (by omega) hj

/-- A bit of a lane. -/
theorem lane_getLsbD (x : Vec) (j i : Nat) : (lane x j).getLsbD i = (decide (i < 64) && x.getLsbD (64 * j + i)) := by
  simp [lane, BitVec.getLsbD_extractLsb']

/-- Lane `j` of the products. -/
theorem lane_mulLanes (a b : Vec) {n j : Nat} (hn : n ≤ 8) (hj : j < n) :
    lane (mulLanes n a b) j = laneProduct (lane a j) (lane b j) :=
  lane_pack _ hn hj

/-- The products end at the vector length. -/
theorem mulLanes_above (a b : Vec) {n i : Nat} (hn : n ≤ 8) (hi : 64 * n ≤ i) : (mulLanes n a b).getLsbD i = false :=
  pack_above _ (by decide) (by omega) hi

/-- Lane `j` under a writemask. -/
theorem lane_mulLanesMasked (active : Nat → Bool) (z : Bool) (old a : Vec) (b : Nat → Quad) {n j : Nat} (hn : n ≤ 8)
    (hj : j < n) : lane (mulLanesMasked n active z old a b) j =
      if active j then laneProduct (lane a j) (b j) else if z then 0 else lane old j :=
  lane_pack _ hn hj

/-- The masked lanes end at the vector length. -/
theorem mulLanesMasked_above (active : Nat → Bool) (z : Bool) (old a : Vec) (b : Nat → Quad) {n i : Nat} (hn : n ≤ 8)
    (hi : 64 * n ≤ i) : (mulLanesMasked n active z old a b).getLsbD i = false :=
  pack_above _ (by decide) (by omega) hi

/-- Every bit after the low 128 bits are replaced. -/
theorem replaceLow128_getLsbD (old r : Vec) (b : Nat) :
    (replaceLow128 old r).getLsbD b = if b < 128 then r.getLsbD b else old.getLsbD b := by
  unfold replaceLow128
  rw [BitVec.getLsbD_append]
  by_cases h : b < 128
  · simp [h]
  · have h2 : 128 + (b - 128) = b := by omega
    by_cases h3 : b - 128 < 384
    · simp [h, h3, h2]
    · have : old.getLsbD b = false := BitVec.getLsbD_of_ge _ _ (by omega)
      simp [h, h3, this]

/-- A lane after the low 128 bits are replaced. -/
theorem lane_replaceLow128 (old r : Vec) {j : Nat} : lane (replaceLow128 old r) j = if j < 2 then lane r j else lane old j := by
  apply BitVec.eq_of_getLsbD_eq
  intro i hi
  simp only [lane_getLsbD, replaceLow128_getLsbD]
  by_cases hj : j < 2
  · have : 64 * j + i < 128 := by omega
    simp [hj, this, lane_getLsbD]
  · have : ¬64 * j + i < 128 := by omega
    simp [hj, this, lane_getLsbD]

end Sys2Proof.Machine
end

