-- ==== Sys2Proof/Laws/Memory.lean ====
section
/-! SUPPORT. Memory: every write keeps the canonical form, reads the byte it wrote and leaves the others; placing a program keeps
everything but memory and the enabling bits. -/

namespace Sys2Proof.Machine

/-! ## The canonical form -/

theorem cellsWfFrom_mono {lo lo' : Nat} (h : lo' ≤ lo) : ∀ m, cellsWfFrom lo m = true → cellsWfFrom lo' m = true
  | [], _ => rfl
  | (a, b) :: rest, hm => by
    simp only [cellsWfFrom, Bool.and_eq_true, decide_eq_true_eq] at hm ⊢
    exact ⟨⟨⟨by omega, hm.1.1.2⟩, hm.1.2⟩, hm.2⟩

/-- A write at `a'` keeps the form from any address not above `a'` and the form's own start. -/
theorem writeCells_wfFrom (a' : Nat) (v : Byte) (ha : a' < 2 ^ 64) :
    ∀ (m : List Host.Cell) (lo : Nat), lo ≤ a' → cellsWfFrom lo m = true → cellsWfFrom lo (writeCells m a' v) = true
  | [], lo, hlo, _ => by
    simp only [writeCells]
    split
    · rfl
    · next hv =>
      simp only [cellsWfFrom, Bool.and_eq_true, decide_eq_true_eq, bne_iff_ne]
      exact ⟨⟨⟨hlo, ha⟩, hv⟩, trivial⟩
  | (a, b) :: rest, lo, hlo, hm => by
    have hm' := hm
    simp only [cellsWfFrom, Bool.and_eq_true, decide_eq_true_eq, bne_iff_ne] at hm'
    obtain ⟨⟨⟨h1, h2⟩, h3⟩, h4⟩ := hm'
    simp only [writeCells]
    split
    · next hlt =>
      split
      · exact hm
      · next hv => simp only [cellsWfFrom, Bool.and_eq_true, decide_eq_true_eq, bne_iff_ne]
                   exact ⟨⟨⟨hlo, ha⟩, hv⟩, ⟨⟨hlt, h2⟩, h3⟩, h4⟩
    · next hge =>
      split
      · next heq =>
        split
        · exact cellsWfFrom_mono (by omega) rest h4
        · next hv => simp only [cellsWfFrom, Bool.and_eq_true, decide_eq_true_eq, bne_iff_ne]
                     exact ⟨⟨⟨h1, h2⟩, hv⟩, h4⟩
      · next hne =>
        simp only [cellsWfFrom, Bool.and_eq_true, decide_eq_true_eq, bne_iff_ne]
        exact ⟨⟨⟨h1, h2⟩, h3⟩, writeCells_wfFrom a' v ha rest (a + 1) (by omega) h4⟩

/-- A write of one byte keeps the canonical form. -/
theorem writeCells_wf {m : List Host.Cell} {a' : Nat} (v : Byte) (ha : a' < 2 ^ 64) (h : Memory.wf m = true) :
    Memory.wf (writeCells m a' v) = true :=
  writeCells_wfFrom a' v ha m 0 (Nat.zero_le _) h

/-! ## Reading after a write -/

/-- An address below the form's start is not listed. -/
theorem readCells_below {a' : Nat} : ∀ (m : List Host.Cell) (lo : Nat), a' < lo → cellsWfFrom lo m = true →
    readCells m a' = unlistedByte
  | [], _, _, _ => rfl
  | (a, b) :: rest, lo, hlo, hm => by
    simp only [cellsWfFrom, Bool.and_eq_true, decide_eq_true_eq] at hm
    have hne : a ≠ a' := by omega
    simp only [readCells, if_neg hne]
    exact readCells_below rest (a + 1) (by omega) hm.2

theorem readCells_writeCells_from (a' : Nat) (v : Byte) : ∀ (m : List Host.Cell) (lo : Nat), cellsWfFrom lo m = true →
    ∀ x, readCells (writeCells m a' v) x = if x = a' then v else readCells m x
  | [], _, _, x => by
    by_cases hv : v = unlistedByte <;> by_cases hx : x = a' <;>
      simp [writeCells, readCells, hv, hx, eq_comm]
    exact fun h => absurd h.symm hx
  | (a, b) :: rest, lo, hm, x => by
    have hm' := hm
    simp only [cellsWfFrom, Bool.and_eq_true, decide_eq_true_eq] at hm'
    have ih := readCells_writeCells_from a' v rest (a + 1) hm'.2 x
    have below : ∀ y, y < a + 1 → readCells rest y = unlistedByte := fun y hy => readCells_below rest (a + 1) hy hm'.2
    simp only [writeCells]
    split
    · next hlt =>
      split
      · next hv =>
        split
        · next hx =>
          rw [hx, hv]
          exact readCells_below ((a, b) :: rest) (a' + 1) (by omega) (by
            simp only [cellsWfFrom, Bool.and_eq_true, decide_eq_true_eq] at hm ⊢
            exact ⟨⟨⟨by omega, hm.1.1.2⟩, hm.1.2⟩, hm.2⟩)
        · rfl
      · by_cases hx : x = a'
        · simp [readCells, hx]
        · simp [readCells, hx, Ne.symm hx]
    · next hge =>
      split
      · next heq =>
        subst heq
        split
        · next hv =>
          split
          · next hx => rw [hx, hv, below _ (by omega)]
          · next hx => simp [readCells, Ne.symm hx]
        · by_cases hx : x = a'
          · simp [readCells, hx]
          · simp [readCells, hx, Ne.symm hx]
      · next hne =>
        simp only [readCells, ih]
        by_cases hax : a = x
        · subst hax
          simp [Ne.symm hne]
        · simp [hax]

/-- Everything a write of one byte does to reads of a canonical memory. -/
theorem readCells_writeCells {m : List Host.Cell} (h : Memory.wf m = true) (a' : Nat) (v : Byte) (x : Nat) :
    readCells (writeCells m a' v) x = if x = a' then v else readCells m x :=
  readCells_writeCells_from a' v m 0 h x

/-! ## Storing bytes -/

/-- Storing bytes changes memory alone. -/
theorem storeBytes_eq (s : State) (a : Nat) (bs : List Byte) :
    s.storeBytes a bs = { s with mem := (s.storeBytes a bs).mem } := by
  induction bs generalizing s a with
  | nil => rfl
  | cons b rest ih =>
    simp only [State.storeBytes]
    rw [ih]
    split <;> rfl

/-- Storing bytes keeps the canonical form. -/
theorem storeBytes_wf (s : State) (a : Nat) (bs : List Byte) (h : Memory.wf s.mem = true) :
    Memory.wf (s.storeBytes a bs).mem = true := by
  induction bs generalizing s a with
  | nil => exact h
  | cons b rest ih =>
    simp only [State.storeBytes]
    apply ih
    split
    · next ha => exact writeCells_wf b ha h
    · exact h

theorem reset_memory_wf : Memory.wf State.reset.mem = true := rfl

/-- Placing a table word keeps the canonical form. -/
theorem placeTableWord_wf (s : State) (nbits w : Nat) (h : Memory.wf s.mem = true) :
    Memory.wf (s.placeTableWord nbits w).mem = true := storeBytes_wf s.enableForms _ _ h

/-- What placing a table word leaves as it was: all but memory, the mode and the enabling bits. -/
theorem placeTableWord_frame (s : State) (nbits w : Nat) :
    s.placeTableWord nbits w = { s.enableForms with mem := (s.placeTableWord nbits w).mem } :=
  storeBytes_eq s.enableForms _ _

/-- The fetch address does not move. -/
theorem withFetchWord_pc (s : State) (nbits w : Nat) : (s.withFetchWord nbits w).pc = s.pc := by
  unfold State.withFetchWord
  rw [placeTableWord_frame]
  rfl

end Sys2Proof.Machine
end

