-- ==== Sys2Proof/Laws/PerInstr.lean ====
section
/-! SUPPORT. One statement about every instruction as syntax: its encoding has the length R92 gives it, within the bounds R92 names for
its form. One lemma per constructor. -/

namespace Sys2Proof.Laws.LengthBounds

/-- The smallest and largest lengths of a form in bytes (30_encoding.md R92). -/
def bounds : Form → Nat × Nat
  | .mm => (3, 9)
  | .xmm => (4, 10)
  | .vexXmm => (4, 10)
  | .vexYmm => (4, 10)
  | .evexXmm => (6, 11)
  | .evexYmm => (6, 11)
  | .evexZmm => (6, 11)

/-- The encoding has the length of R92, between the form's bounds. -/
def Statement (i : Instr) : Prop :=
  (encode i).length = i.len ∧ (bounds i.form).1 ≤ i.len ∧ i.len ≤ (bounds i.form).2

theorem disp_length (d : Disp) : d.bytes.length = d.len ∧ d.len ≤ 4 := by
  cases d <;> simp [Disp.bytes, Disp.len, disp32Bytes]

theorem rm_length (reg : BitVec 3) (rm : Rm) : (encodeRm reg rm).length = rm.len ∧ 1 ≤ rm.len ∧ rm.len ≤ 6 := by
  cases rm with
  | reg r => simp [encodeRm, Rm.len]
  | mem m =>
    cases m with
    | base r d => have := disp_length d; simp [encodeRm, Rm.len]; omega
    | ripRel d => simp [encodeRm, Rm.len, disp32Bytes]
    | sib sc x b d => have := disp_length d; simp [encodeRm, Rm.len]; omega
    | sibNoBase sc x d => simp [encodeRm, Rm.len, disp32Bytes]

theorem rex_length (rex : Option Rex) : (rexBytes rex).length = rexLen rex ∧ rexLen rex ≤ 1 := by
  cases rex <;> simp [rexBytes, rexLen]

theorem vex_length (l : Bool) (vex : Vex) : (vex.bytes l).length = vex.len ∧ 2 ≤ vex.len ∧ vex.len ≤ 3 := by
  cases vex <;> simp [Vex.bytes, Vex.len]

theorem pmuludqMm (rex : Option Rex) (reg : BitVec 3) (rm : Rm) : Statement (.pmuludqMm rex reg rm) := by
  have h1 := rm_length reg rm
  have h2 := rex_length rex
  simp only [Statement, encode, Instr.len, Instr.form, bounds, List.length_append, List.length_cons, List.length_nil]
  omega

theorem pmuludqXmm (rex : Option Rex) (reg : BitVec 3) (rm : Rm) : Statement (.pmuludqXmm rex reg rm) := by
  have h1 := rm_length reg rm
  have h2 := rex_length rex
  simp only [Statement, encode, Instr.len, Instr.form, bounds, List.length_append, List.length_cons, List.length_nil]
  omega

theorem vpmuludqVexXmm (vex : Vex) (reg : BitVec 3) (rm : Rm) : Statement (.vpmuludqVexXmm vex reg rm) := by
  have h1 := rm_length reg rm
  have h2 := vex_length false vex
  simp only [Statement, encode, Instr.len, Instr.form, bounds, List.length_append, List.length_cons, List.length_nil]
  omega

theorem vpmuludqVexYmm (vex : Vex) (reg : BitVec 3) (rm : Rm) : Statement (.vpmuludqVexYmm vex reg rm) := by
  have h1 := rm_length reg rm
  have h2 := vex_length true vex
  simp only [Statement, encode, Instr.len, Instr.form, bounds, List.length_append, List.length_cons, List.length_nil]
  omega

theorem vpmuludqEvexXmm (e : Evex) (reg : BitVec 3) (rm : Rm) : Statement (.vpmuludqEvexXmm e reg rm) := by
  have h1 := rm_length reg rm
  simp only [Statement, encode, Evex.bytes, Instr.len, Instr.form, bounds, List.length_append, List.length_cons,
    List.length_nil]
  omega

theorem vpmuludqEvexYmm (e : Evex) (reg : BitVec 3) (rm : Rm) : Statement (.vpmuludqEvexYmm e reg rm) := by
  have h1 := rm_length reg rm
  simp only [Statement, encode, Evex.bytes, Instr.len, Instr.form, bounds, List.length_append, List.length_cons,
    List.length_nil]
  omega

theorem vpmuludqEvexZmm (e : Evex) (reg : BitVec 3) (rm : Rm) : Statement (.vpmuludqEvexZmm e reg rm) := by
  have h1 := rm_length reg rm
  simp only [Statement, encode, Evex.bytes, Instr.len, Instr.form, bounds, List.length_append, List.length_cons,
    List.length_nil]
  omega

end Sys2Proof.Laws.LengthBounds
end

