-- ==== Sys2Proof/Tests/Slice0.lean ====
section
/-! SUPPORT. The model's own tests: ill-formed terms refused, words of the spec decoded, one step of each form, the faults, and for each
statement that has hypotheses a concrete case that meets them all. Expected values are those of spec/95_test_vectors.md, or are
written out from spec/30_encoding.md by hand. -/

namespace Sys2Proof.Tests

-- a 512-bit register's value is reduced modulo 2 ^ 512
set_option exponentiation.threshold 600

open Sys2Proof Sys2Proof.Machine Sys2Proof.Statements

/-! ## Helpers -/

/-- The configuration of the test vectors, with `pc` at 4000h. -/
def base : State := { State.reset.enableForms with pc := 0x4000 }

/-- The state with a program stored at `pc`. -/
def program (bs : List Byte) (s : State) : State := s.storeBytes s.pc.toNat bs

/-- A vector from its lanes, lane 0 first. -/
def lanesOf (l : List Quad) : Vec := pack 64 (fun j => l.getD j 0) 8

/-- A general-purpose register set. -/
def withGpr (n : BitVec 4) (val : Quad) (s : State) : State := { s with x := s.x.set n.toNat val n.isLt }

/-- An opmask register set. -/
def withMask (n : BitVec 3) (val : Quad) (s : State) : State := { s with k := s.k.set n.toNat val n.isLt }

/-- A look at the next state of an outcome, if there is one. -/
def look {α : Type} (f : State → α) : Out → Option α
  | .next t => some (f t)
  | .fault _ => none
  | .refused _ => none

/-- An outcome with something to look at is a next state. -/
theorem exists_next {o : Out} (h : (look State.pc o).isSome = true) : ∃ t, o = .next t := by
  cases o with
  | next t => exact ⟨t, rfl⟩
  | fault f => simp [look] at h
  | refused r => simp [look] at h

/-- The fault of an outcome, if it is one: vector, error code, reported address. -/
def faultOf : Out → Option (Nat × Option (BitVec 32) × Quad)
  | .next _ => none
  | .fault f => some (f.vector, f.errorCode, f.rip)
  | .refused _ => none

/-- The fault of vector 6 is #UD. -/
theorem ud_of_faultOf {o : Out} {rip : Quad} (h : faultOf o = some (6, none, rip)) : o = .fault (.invalidOpcode rip) := by
  cases o with
  | next t => simp [faultOf] at h
  | fault f => cases f <;> simp_all [faultOf, Fault.vector, Fault.errorCode, Fault.rip]
  | refused r => simp [faultOf] at h

/-- The refusal of an outcome, if it is one. -/
def refusalOf : Out → Option Refusal
  | .next _ => none
  | .fault _ => none
  | .refused r => some r

/-! ## WellFormed: an ill-formed term for each check (30_encoding.md R86) -/

/-- `rm = 4` is the SIB escape, so it is no plain base. -/
theorem test_illFormed_base_rm4 : Instr.WellFormed (.pmuludqMm none 0 (.mem (.base 4 (.disp8 0)))) = false := by decide

/-- `mod = 0` with `rm = 5` is the RIP-relative operand. -/
theorem test_illFormed_base_rm5_without_disp : Instr.WellFormed (.pmuludqXmm none 0 (.mem (.base 5 .none))) = false := by
  decide

/-- `mod = 0` with SIB base 5 has no base register. -/
theorem test_illFormed_sib_base5_without_disp :
    Instr.WellFormed (.vpmuludqVexXmm (.two false 0) 0 (.mem (.sib 0 0 5 .none))) = false := by decide

/-- The same shapes with a displacement are well formed. -/
theorem test_wellFormed_with_disp :
    Instr.WellFormed (.pmuludqXmm none 0 (.mem (.base 5 (.disp8 0)))) = true ∧
    Instr.WellFormed (.vpmuludqVexXmm (.two false 0) 0 (.mem (.sib 0 0 5 (.disp32 0)))) = true := by decide

/-! ## Decoding: words written out bit by bit (30_encoding.md R73 to R81) -/

/-- Form 1: `0F`, `F4`, ModRM `11 000 001`; `PMULUDQ mm0, mm1`. -/
theorem test_decode_form1 : decode [0x0F, 0xF4, 0b11000001] = .instr (.pmuludqMm none 0 (.reg 1)) [] := by decide

/-- Form 1 with REX `0100 0001`: REX.B does not reach an MMX register; `PMULUDQ mm1, mm1`. -/
theorem test_decode_form1_rex :
    disassemble [0b01000001, 0x0F, 0xF4, 0b11001001] =
      some { mnemonic := .pmuludq, mask := none, zeroing := false, operands := [.mm 1, .mm 1] } := by decide

/-- Form 2: `66`, REX.R `0100 0100`, `0F`, `F4`, ModRM `11 001 001`; `PMULUDQ xmm9, xmm1`. -/
theorem test_decode_form2 :
    decode [0x66, 0b01000100, 0x0F, 0xF4, 0b11001001] =
      .instr (.pmuludqXmm (some { w := false, r := true, x := false, b := false }) 1 (.reg 1)) [] := by decide

/-- Form 3: `C5`, then R̄ = 1, inverted vvvv = 1101 (2), L = 0, pp = 01; `VPMULUDQ xmm1, xmm2, xmm3`. -/
theorem test_decode_form3 :
    decode [0xC5, 0b11101001, 0xF4, 0b11001011] = .instr (.vpmuludqVexXmm (.two false 2) 1 (.reg 3)) [] := by decide

/-- Form 4: `C4`, R̄X̄B̄ = 010 mmmmm = 00001, then W = 0, inverted vvvv = 0101 (10), L = 1, pp = 01; `VPMULUDQ ymm9, ymm10, ymm11`. -/
theorem test_decode_form4 :
    decode [0xC4, 0b01000001, 0b00101101, 0xF4, 0b11001011] =
      .instr (.vpmuludqVexYmm (.three false true false true 10) 1 (.reg 3)) [] := by decide

/-- Form 5: `62`, P0 `1111 0001`, P1 `1 1101 1 01`, P2 `1 00 1 1 111`, F4, ModRM `00 001 000`;
`VPMULUDQ xmm1 {k7}{z}, xmm2, [rax]{1to2}`. -/
theorem test_decode_form5 :
    decode [0x62, 0b11110001, 0b11101101, 0b10011111, 0xF4, 0b00001000] =
      .instr (.vpmuludqEvexXmm
        { r := false, x := false, b := false, r' := false, vvvv := 2, v' := false, z := true, bcst := true, aaa := 7 }
        1 (.mem (.base 0 .none))) [] := by decide

/-- Form 6: P2 `0 01 0 1 001` and ModRM `01 001 000` with disp8 = 01, scaled by 32; `VPMULUDQ ymm1 {k1}, ymm2, [rax+20h]`. -/
theorem test_decode_form6 :
    disassemble [0x62, 0b11110001, 0b11101101, 0b00101001, 0xF4, 0b01001000, 0x01] =
      some { mnemonic := .vpmuludq, mask := some 1, zeroing := false,
             operands := [.ymm 1, .ymm 2,
               .mem 256 { base := some 0, index := none, scale := 0, disp := 0x20, ripRelative := false }] } := by decide

/-- Form 7: P0 `1010 0001` (X̄ = 0, R̄' = 0), P1 `1 1101 1 01`, P2 `0 10 0 0 000` (V̄' = 0); `VPMULUDQ zmm17, zmm18, zmm19`. -/
theorem test_decode_form7 :
    decode [0x62, 0b10100001, 0b11101101, 0b01000000, 0xF4, 0b11001011] =
      .instr (.vpmuludqEvexZmm
        { r := false, x := true, b := false, r' := true, vvvv := 2, v' := true, z := false, bcst := false, aaa := 0 }
        1 (.reg 3)) [] := by decide

/-- A 32-bit displacement is not scaled, an 8-bit one under broadcast is scaled by 8 (95_test_vectors.md, section 9). -/
theorem test_decode_displacements :
    (disassemble [0x62, 0xF1, 0xED, 0x48, 0xF4, 0x88, 0x04, 0x00, 0x00, 0x00]).map AsmLine.operands =
      some [.zmm 1, .zmm 2, .mem 512 { base := some 0, index := none, scale := 0, disp := 4, ripRelative := false }] ∧
    (disassemble [0x62, 0xF1, 0xED, 0x58, 0xF4, 0x48, 0x01]).map AsmLine.operands =
      some [.zmm 1, .zmm 2,
        .broadcast { base := some 0, index := none, scale := 0, disp := 8, ripRelative := false } 8] := by decide

/-- A RIP-relative operand, and a SIB operand with scale 2, index R10, base RBP; then a SIB byte with neither base nor index. -/
theorem test_decode_addresses :
    (disassemble [0x0F, 0xF4, 0b00000101, 0xF0, 0xFF, 0xFF, 0xFF]).map AsmLine.operands =
      some [.mm 0, .mem 64 { base := none, index := none, scale := 0, disp := -16, ripRelative := true }] ∧
    (disassemble [0b01000010, 0x0F, 0xF4, 0b01000100, 0b10010101, 0x80]).map AsmLine.operands =
      some [.mm 0, .mem 64 { base := some 5, index := some 10, scale := 2, disp := -128, ripRelative := false }] ∧
    (disassemble [0x0F, 0xF4, 0b00000100, 0b00100101, 0x10, 0x00, 0x00, 0x00]).map AsmLine.operands =
      some [.mm 0, .mem 64 { base := none, index := none, scale := 0, disp := 16, ripRelative := false }] := by decide

/-- The refusals and invalid encodings of 95_test_vectors.md, section 10. -/
theorem test_decode_rejections :
    decode [0xF0, 0x66, 0x0F, 0xF4, 0xC1] = .invalid ∧
    decode [0x62, 0xF1, 0xED, 0x68, 0xF4, 0xCB] = .invalid ∧
    decode [0x62, 0xF1, 0x6D, 0x48, 0xF4, 0xCB] = .refused .evexFields ∧
    decode [0xF3, 0x0F, 0xF4, 0xC1] = .refused .repeatPrefix ∧
    decode [0xF2, 0x0F, 0xF4, 0xC1] = .refused .repeatPrefix ∧
    decode [0x2E, 0x66, 0x0F, 0xF4, 0xC1] = .refused .prefixNotAdmitted ∧
    decode [0x67, 0x0F, 0xF4, 0x00] = .refused .prefixNotAdmitted ∧
    decode [0x0F, 0xF5, 0xC1] = .refused .otherOpcode ∧
    decode [0x0F, 0xF4] = .incomplete := by decide

/-- A table word is read whichever end its first byte stands at (log 18): `0F F4 C1` both ways. -/
theorem test_decodeTableWord :
    decodeTableWord 24 0x0FF4C1 = some (.pmuludqMm none 0 (.reg 1)) ∧
    decodeTableWord 24 0xC1F40F = some (.pmuludqMm none 0 (.reg 1)) := by decide

/-! ## One step of each form (95_test_vectors.md, sections 3 to 9) -/

/-- `PMULUDQ mm0, mm1`: the upper doublewords are ignored and the old upper half is overwritten. -/
theorem test_form1_register :
    look (fun t => (t.mmReg 0, t.mmReg 1, t.pc))
      (step (program [0x0F, 0xF4, 0xC1] ((base.setMm 0 0x1111111180000000).setMm 1 0x2222222200000002))) =
      some (0x0000000100000000, 0x2222222200000002, 0x4003) := by decide

/-- `PMULUDQ mm0, [rax]` at an odd address with alignment checking off. -/
theorem test_form1_memory :
    look (fun t => (t.mmReg 0, t.pc))
      (step (program [0x0F, 0xF4, 0x00]
        ((withGpr 0 0x2003 (base.setMm 0 0xFFFFFFFF0000FFFF)).storeBytes 0x2003
          [0x01, 0x00, 0x01, 0x00, 0x78, 0x56, 0x34, 0x12]))) =
      some (0x00000000FFFFFFFF, 0x4003) := by decide

/-- `PMULUDQ xmm0, xmm1`: program P1's first instruction; lanes 7 to 2 are kept. -/
theorem test_form2_register :
    look (fun t => (t.vec 0, t.pc))
      (step (program [0x66, 0x0F, 0xF4, 0xC1]
        ((base.setVec 0 (lanesOf [0x1111111100000007, 0x22222222FFFFFFFF, 0xAAAAAAAAAAAAAAAA, 0xBBBBBBBBBBBBBBBB,
          0xCCCCCCCCCCCCCCCC, 0xDDDDDDDDDDDDDDDD, 0xEEEEEEEEEEEEEEEE, 0x9999999999999999])).setVec 1
          (lanesOf [0x3333333300000006, 0x4444444400000002, 0x5555555555555555])))) =
      some (lanesOf [0x2A, 0x00000001FFFFFFFE, 0xAAAAAAAAAAAAAAAA, 0xBBBBBBBBBBBBBBBB,
        0xCCCCCCCCCCCCCCCC, 0xDDDDDDDDDDDDDDDD, 0xEEEEEEEEEEEEEEEE, 0x9999999999999999], 0x4004) := by decide

/-- `PMULUDQ xmm0, [rax]` runs at 1000h and raises #GP(0) at 1008h. -/
theorem test_form2_memory :
    look (fun t => (t.vec 0, t.pc))
      (step (program [0x66, 0x0F, 0xF4, 0x00]
        ((withGpr 0 0x1000 (base.setVec 0 (lanesOf [3, 0xFFFFFFFF]))).storeBytes 0x1000
          [5, 0, 0, 0, 9, 9, 9, 9, 0, 0, 0, 0x80]))) = some (lanesOf [15, 0x7FFFFFFF80000000], 0x4004) ∧
    faultOf (step (program [0x66, 0x0F, 0xF4, 0x00] (withGpr 0 0x1008 base))) = some (13, some 0, 0x4000) := by decide

/-- `VPMULUDQ xmm2, xmm2, xmm2`: source and destination the same; bits from 128 up become zero. -/
theorem test_form3_register :
    look (fun t => (t.vec 2, t.pc))
      (step (program [0xC5, 0xE9, 0xF4, 0xD2]
        (base.setVec 2 (lanesOf [0x0A, 0x15, 0xFFFFFFFE00000001, 0x0000000100000000, 1, 1, 1, 1])))) =
      some (lanesOf [0x64, 0x1B9], 0x4004) := by decide

/-- `VPMULUDQ xmm1, xmm2, [rax]` at 1008h does not fault. -/
theorem test_form3_memory :
    look (fun t => (t.vec 1, t.pc))
      (step (program [0xC5, 0xE9, 0xF4, 0x08]
        ((withGpr 0 0x1008 (base.setVec 2 (lanesOf [0xDEADBEEF12345678, 0x10000]))).storeBytes 0x1008
          [0xF0, 0xDE, 0xBC, 0x9A, 0, 0, 0, 0, 0, 0, 1, 0]))) =
      some (lanesOf [0x0B00EA4E242D2080, 0x0000000100000000], 0x4004) := by decide

/-- `VPMULUDQ ymm1, ymm2, ymm3`. -/
theorem test_form4_register :
    look (fun t => (t.vec 1, t.pc))
      (step (program [0xC5, 0xED, 0xF4, 0xCB]
        (((base.setVec 2 (lanesOf [3, 0xFFFFFFFF, 0x80000000, 0xDEADBEEF])).setVec 3
          (lanesOf [5, 0xFFFFFFFF, 0x80000000, 0xCAFEBABE])).setVec 1 (lanesOf [1, 1, 1, 1, 1, 1, 1, 1])))) =
      some (lanesOf [0x0F, 0xFFFFFFFE00000001, 0x4000000000000000, 0xB092AB7B88CF5B62], 0x4004) := by decide

/-- `VPMULUDQ ymm2, ymm0, [rax]` at 1004h: program P2's first instruction. -/
theorem test_form4_memory :
    look (fun t => (t.vec 2, t.pc))
      (step (program [0xC5, 0xFD, 0xF4, 0x10]
        ((withGpr 0 0x1004 (base.setVec 0 (lanesOf
          [0x0000000000000002, 0xFFFFFFFF00000003, 0x00000000FFFFFFFF, 0x1234567880000000]))).storeBytes 0x1004
          [5, 0, 0, 0, 0, 0, 0, 0, 7, 0, 0, 0, 1, 0, 0, 0, 0xFF, 0xFF, 0xFF, 0xFF, 0xFF, 0xFF, 0xFF, 0xFF, 2]))) =
      some (lanesOf [0x0A, 0x15, 0xFFFFFFFE00000001, 0x0000000100000000], 0x4004) := by decide

/-- The inputs of section 7, with a mask in K1. -/
def form5Start (mask : Quad) : State :=
  withMask 1 mask (((base.setVec 2 (lanesOf [0x0000000A00000003, 0xFFFFFFFF00000007])).setVec 3
    (lanesOf [0x0000000B00000005, 9])).setVec 1
    (lanesOf [0x1111111111111111, 0x2222222222222222, 0x3333333333333333, 4, 5, 6, 7, 8]))

/-- Form 5 merging and zeroing with mask 01: lane 1 is kept or cleared, bits from 128 up are cleared in both. -/
theorem test_form5_masks :
    look (fun t => t.vec 1) (step (program [0x62, 0xF1, 0xED, 0x09, 0xF4, 0xCB] (form5Start 1))) =
      some (lanesOf [0x0F, 0x2222222222222222]) ∧
    look (fun t => t.vec 1) (step (program [0x62, 0xF1, 0xED, 0x89, 0xF4, 0xCB] (form5Start 1))) =
      some (lanesOf [0x0F]) := by decide

/-- Form 5 with broadcast and mask 10 in K7, zeroing. -/
theorem test_form5_broadcast :
    look (fun t => (t.vec 1, t.pc))
      (step (program [0x62, 0xF1, 0xED, 0x9F, 0xF4, 0x08]
        ((withGpr 0 0x3000 (withMask 7 2 (form5Start 0))).storeBytes 0x3000 [5, 0, 0, 0, 0x0B]))) =
      some (lanesOf [0, 0x23], 0x4006) := by decide

/-- The inputs of section 8, with a mask in K2. -/
def form6Start (mask : Quad) : State :=
  withMask 2 mask (((base.setVec 2 (lanesOf [2, 0x00000001FFFFFFFF, 0xABCDEF0180000000, 9])).setVec 3
    (lanesOf [3, 0x0000000200000002, 0x80000000, 9])).setVec 1
    (lanesOf [0x1111111111111111, 0x2222222222222222, 0x3333333333333333, 0x4444444444444444, 5, 6, 7, 8]))

/-- Form 6 merging with mask 0110; the bits of K2 from 4 up are ignored. -/
theorem test_form6_mask :
    look (fun t => (t.vec 1, t.pc)) (step (program [0x62, 0xF1, 0xED, 0x2A, 0xF4, 0xCB] (form6Start 0xFFFFFFFFFFFFFFF6))) =
      some (lanesOf [0x1111111111111111, 0x00000001FFFFFFFE, 0x4000000000000000, 0x4444444444444444], 0x4006) := by decide

/-- Form 6 with broadcast, zeroing with mask 1001. -/
theorem test_form6_broadcast :
    look (fun t => t.vec 1)
      (step (program [0x62, 0xF1, 0xED, 0xBA, 0xF4, 0x08]
        ((withGpr 0 0x3000 (form6Start 9)).storeBytes 0x3000 [3]))) = some (lanesOf [6, 0, 0, 0x1B]) := by decide

/-- The inputs of section 9, with a mask in K1. -/
def form7Start (mask : Quad) : State :=
  withMask 1 mask (((base.setVec 2 (lanesOf [0x10, 0x20, 0x30, 0x40, 0x50, 0x60, 0x70, 0x80])).setVec 3
    (lanesOf [1, 2, 3, 4, 5, 6, 7, 8])).setVec 1 (pack 64 (fun _ => 0xF0F0F0F0F0F0F0F0) 8))

/-- Form 7 merging with mask A5. -/
theorem test_form7_mask :
    look (fun t => (t.vec 1, t.pc)) (step (program [0x62, 0xF1, 0xED, 0x49, 0xF4, 0xCB] (form7Start 0xA5))) =
      some (lanesOf [0x10, 0xF0F0F0F0F0F0F0F0, 0x90, 0xF0F0F0F0F0F0F0F0, 0xF0F0F0F0F0F0F0F0, 0x240, 0xF0F0F0F0F0F0F0F0,
        0x400], 0x4006) := by decide

/-- Form 7 with broadcast, zeroing with mask 81. -/
theorem test_form7_broadcast :
    look (fun t => t.vec 1)
      (step (program [0x62, 0xF1, 0xED, 0xD9, 0xF4, 0x08]
        ((withGpr 0 0x3000 (form7Start 0x81)).storeBytes 0x3000 [1]))) =
      some (lanesOf [0x10, 0, 0, 0, 0, 0, 0, 0x80]) := by decide

/-! ## Faults and refusals (95_test_vectors.md, section 10) -/

/-- One of the parameters changed. -/
def withCfg (g : Config → Config) (s : State) : State := { s with cfg := g s.cfg }

/-- Alignment checking on: CR0.AM, EFLAGS.AC and privilege level 3. -/
def checking (s : State) : State := { s with cr0 := s.cr0 ||| 0x40000, rflags := s.rflags ||| 0x40000, cpl := 3 }

/-- A page that is not present, at 5000h. -/
def hole (s : State) : State := { s with regions := [{ base := 0x5000, size := 0x1000, barrier := .notPresent }] }

/-- A flag of the row is 0: AVX2 for form 4 and not for form 3, AVX512VL for form 5 and not for form 7. -/
theorem test_fault_features :
    faultOf (step (program [0xC5, 0xED, 0xF4, 0xCB] (withCfg (fun c => { c with avx2 := false }) base))) =
      some (6, none, 0x4000) ∧
    (look State.pc (step (program [0xC5, 0xE9, 0xF4, 0xCB] (withCfg (fun c => { c with avx2 := false }) base)))) =
      some 0x4004 ∧
    faultOf (step (program [0x62, 0xF1, 0xED, 0x08, 0xF4, 0xCB] (withCfg (fun c => { c with avx512vl := false }) base))) =
      some (6, none, 0x4000) ∧
    (look State.pc
      (step (program [0x62, 0xF1, 0xED, 0x48, 0xF4, 0xCB] (withCfg (fun c => { c with avx512vl := false }) base)))) =
      some 0x4006 := by decide

/-- CR4.OSFXSR and CR0.EM: form 2 without OSFXSR faults and form 1 runs; with EM both fault and form 3 runs; EM comes before TS. -/
theorem test_fault_enables :
    faultOf (step (program [0x66, 0x0F, 0xF4, 0xC1] { base with cr4 := 0x40000 })) = some (6, none, 0x4000) ∧
    look State.pc (step (program [0x0F, 0xF4, 0xC1] { base with cr4 := 0x40000 })) = some 0x4003 ∧
    faultOf (step (program [0x0F, 0xF4, 0xC1] (base.withEm true))) = some (6, none, 0x4000) ∧
    faultOf (step (program [0x66, 0x0F, 0xF4, 0xC1] (base.withEm true))) = some (6, none, 0x4000) ∧
    look State.pc (step (program [0xC5, 0xE9, 0xF4, 0xCB] (base.withEm true))) = some 0x4004 ∧
    faultOf (step (program [0xC5, 0xE9, 0xF4, 0xCB] { base with cr0 := 0x60000018 })) = some (7, none, 0x4000) ∧
    faultOf (step (program [0x0F, 0xF4, 0xC1] { base with cr0 := 0x6000001C })) = some (6, none, 0x4000) := by
  decide

/-- A pending x87 exception stops form 1 with #MF and form 2 not at all. -/
theorem test_fault_x87 :
    faultOf (step (program [0x0F, 0xF4, 0xC1] { base with x87ExceptionPending := true })) = some (16, none, 0x4000) ∧
    look State.pc (step (program [0x66, 0x0F, 0xF4, 0xC1] { base with x87ExceptionPending := true })) = some 0x4004 := by
  decide

/-- Memory faults: #AC(0), #GP(0) and #SS(0) for an address that is not canonical, #PF whatever the mask. -/
theorem test_fault_memory :
    faultOf (step (program [0x0F, 0xF4, 0x00] (withGpr 0 0x2003 (checking base)))) = some (17, some 0, 0x4000) ∧
    faultOf (step (program [0xC5, 0xFD, 0xF4, 0x10] (withGpr 0 0x800000000000 base))) = some (13, some 0, 0x4000) ∧
    faultOf (step (program [0xC5, 0xFD, 0xF4, 0x14, 0x24] (withGpr 4 0x7FFFFFFFFFF0 base))) = some (12, some 0, 0x4000) ∧
    (faultOf (step (program [0x62, 0xF1, 0xED, 0xC9, 0xF4, 0x08] (withGpr 0 0x4FC1 (hole base))))).map Prod.fst =
      some 14 ∧
    look State.pc (step (program [0x62, 0xF1, 0xED, 0xC9, 0xF4, 0x08] (withGpr 0 0x4FC0 (hole base)))) =
      some 0x4006 := by decide

/-- EVEX.b = 1 with a register operand, EVEX.z = 1 without a writemask, and LOCK: #UD. Outside 64-bit mode: refused. -/
theorem test_fault_encodings :
    faultOf (step (program [0x62, 0xF1, 0xED, 0x18, 0xF4, 0xCB] base)) = some (6, none, 0x4000) ∧
    faultOf (step (program [0x62, 0xF1, 0xED, 0x88, 0xF4, 0xCB] base)) = some (6, none, 0x4000) ∧
    faultOf (step (program [0xF0, 0x66, 0x0F, 0xF4, 0xC1] base)) = some (6, none, 0x4000) ∧
    refusalOf (step (program [0xF2, 0x0F, 0xF4, 0xC1] base)) = some (.notInScope .repeatPrefix) ∧
    refusalOf (step State.reset) = some .outside64BitMode := by decide

/-- Program P6: the second instruction faults with the state after the first. -/
theorem test_runTo_fault :
    (match runTo 0x4008 3 (program [0x66, 0x0F, 0xF4, 0xC1, 0x66, 0x0F, 0xF4, 0x00]
        (withGpr 0 0x1008 ((base.setVec 0 (lanesOf [0x1111111100000007, 0x22222222FFFFFFFF])).setVec 1
          (lanesOf [0x3333333300000006, 0x4444444400000002])))) with
      | .faulted f t => some (f.vector, t.pc, t.vec 0)
      | .finished _ => none
      | .refused _ _ => none
      | .running _ => none) = some (13, 0x4004, lanesOf [0x2A, 0x00000001FFFFFFFE]) := by decide

/-- Program P3 finishes. -/
theorem test_runTo_finished :
    (match runTo 0x400C 3 (program [0x62, 0xF1, 0xED, 0xD9, 0xF4, 0x08, 0x62, 0xF1, 0xF5, 0x4A, 0xF4, 0xC9]
        ((withGpr 0 0x3000 (withMask 1 0xFFFFFFFFFFFFFF3C (withMask 2 0x19
          ((base.setVec 2 (lanesOf [0xABCD000000000001, 0xABCD000100000002, 0xABCD000200000003, 0xABCD000300000004,
            0xABCD000400000005, 0xABCD000500000006, 0xABCD000600000007, 0xABCD000700000008])).setVec 1
            (pack 64 (fun _ => 0x7777777777777777) 8))))).storeBytes 0x3000 [0, 0, 1, 0, 0xEF, 0xBE, 0xAD, 0xDE])) with
      | .finished t => some (t.pc, t.vec 1)
      | .faulted _ _ => none
      | .refused _ _ => none
      | .running _ => none) =
      some (0x400C, lanesOf [0, 0, 0x30000, 0x1000000000, 0x1900000000, 0x60000, 0, 0]) := by decide

/-! ## Witnesses: for each statement with hypotheses, values that meet them all -/

/-- Instructions and states the witnesses share. -/
def mmRR : Instr := .pmuludqMm none 0 (.reg 1)
def mmMem : Instr := .pmuludqMm none 0 (.mem (.base 0 .none))
def xmmRR : Instr := .pmuludqXmm none 0 (.reg 1)
def xmmMem : Instr := .pmuludqXmm none 0 (.mem (.base 0 .none))
def plainEvex : Evex :=
  { r := false, x := false, b := false, r' := false, vvvv := 2, v' := false, z := false, bcst := false, aaa := 0 }
def maskedEvex : Evex := { plainEvex with aaa := 7, z := true, r' := true, v' := true, x := true }
def bcstEvex : Evex := { maskedEvex with bcst := true }

/-- RAX at a value. -/
def withRax (val : Quad) : State := withGpr 0 val base

/-- The test configuration satisfies the invariant, with a program in memory. -/
theorem test_witness_invariant_program : Invariant (program [0x0F, 0xF4, 0xC1] base) := by
  refine ⟨by decide, by decide, ?_, ?_⟩
  · intro n b h
    exact BitVec.getLsbD_of_ge _ _ h
  · intro n h
    have hn : (program [0x0F, 0xF4, 0xC1] base).nvec = 32 := by decide
    have := n.isLt
    omega

theorem test_witness_StepKeepsInvariant :
    ∃ t, Invariant (program [0x0F, 0xF4, 0xC1] base) ∧ step (program [0x0F, 0xF4, 0xC1] base) = .next t := by
  obtain ⟨t, h⟩ := exists_next (o := step (program [0x0F, 0xF4, 0xC1] base)) (by decide)
  exact ⟨t, test_witness_invariant_program, h⟩

theorem test_witness_DecodeOfEncodeIsTheInstruction :
    Instr.WellFormed mmRR = true ∧ Instr.WellFormed (.vpmuludqEvexZmm bcstEvex 7 (.mem (.sibNoBase 3 4 0x80000000))) = true := by
  decide

theorem test_witness_EncodeOfDecodeIsTheBytes : decode [0x0F, 0xF4, 0xC1, 0x90] = .instr mmRR [0x90] := by decide

theorem test_witness_StepRunsDecodedInstruction :
    (program [0x0F, 0xF4, 0xC1] base).mode64 = true ∧
    decode (program [0x0F, 0xF4, 0xC1] base).fetchWindow = .instr mmRR (List.replicate 12 0) := by decide

theorem test_witness_LockBeforeAnyFormRaisesUd :
    Instr.WellFormed xmmMem = true ∧
    (program [0xF0, 0x66, 0x0F, 0xF4, 0xC1] base).mode64 = true ∧
    decode (program [0xF0, 0x66, 0x0F, 0xF4, 0xC1] base).fetchWindow = .invalid := by decide

theorem test_witness_PrefixBeforeVexOrEvexIsInvalid :
    Instr.WellFormed (.vpmuludqVexXmm (.two false 2) 1 (.reg 3)) = true ∧
    (Instr.form (.vpmuludqVexXmm (.two false 2) 1 (.reg 3))).isVexOrEvex = true ∧
    (0x40 ≤ (0x40 : Byte).toNat ∧ (0x40 : Byte).toNat ≤ 0x4F) ∧ (0x40 ≤ (0x4F : Byte).toNat ∧ (0x4F : Byte).toNat ≤ 0x4F) := by
  decide

theorem test_witness_RefusedPrefixesAreRefused :
    (Instr.WellFormed mmRR = true ∧ mmRR.form.isVexOrEvex = false ∧ (0xF2 : Byte) = 0xF2) ∧
    (Instr.WellFormed mmMem = true ∧ (0x67 : Byte) = 0x67) ∧ Rm.wellFormed (.reg 7) = true := by decide

theorem test_witness_ReservedEvexFields :
    Rm.wellFormed (.mem (.base 7 (.disp32 5))) = true ∧ (0x6D : Byte).getLsbD 7 = false := by decide

theorem test_witness_OutsideModeEverythingIsRefused : State.reset.mode64 = false := by decide

/-- The two ends of the admitted lengths, 3 and 11 bytes, decode. -/
theorem test_witness_OverLongInstructionIsRefused :
    (program (List.replicate 15 0x66) base).mode64 = true ∧
    (program (List.replicate 15 0x66) base).fetchWindow.length = 15 ∧
    decode (program (List.replicate 15 0x66) base).fetchWindow = .incomplete ∧
    decode [0x0F, 0xF4, 0xC1] = .instr mmRR [] ∧
    decode [0x62, 0xF1, 0xED, 0x48, 0xF4, 0x8C, 0x98, 1, 0, 0, 0, 0x90] =
      .instr (.vpmuludqEvexZmm plainEvex 1 (.mem (.sib 2 3 0 (.disp32 1)))) [0x90] := by decide

theorem test_witness_EffectiveAddressIsTheTruncatedSum :
    Instr.rm (.vpmuludqEvexZmm bcstEvex 7 (.mem (.sib 3 4 7 (.disp8 0x80)))) = .mem (.sib 3 4 7 (.disp8 0x80)) ∧
    (∀ d, MemOperand.sib 3 4 7 (.disp8 0x80) ≠ .ripRel d) ∧ ∃ t, exec xmmRR base = .next t :=
  ⟨rfl, nofun, exists_next (by decide)⟩

theorem test_witness_RipRelativeAddressIsFromTheNextInstruction :
    Instr.rm (.pmuludqXmm none 7 (.mem (.ripRel 0x80000000))) = .mem (.ripRel 0x80000000) := rfl

/-- A base numbered 4 by its field, and RSP only without the extension bit. -/
theorem test_witness_StackSegmentOnlyForRspAndRbp :
    (Instr.rm (.vpmuludqVexXmm (.two false 0) 0 (.mem (.sib 0 4 4 .none))) = .mem (.sib 0 4 4 .none) ∧
      (partsOf (.vpmuludqVexXmm (.two false 0) 0 (.mem (.sib 0 4 4 .none))) (.sib 0 4 4 .none)).base = some 4) ∧
    (partsOf (.vpmuludqVexXmm (.three false false false true 0) 0 (.mem (.sib 0 4 4 .none))) (.sib 0 4 4 .none)).base =
      some 12 := by decide

theorem test_witness_DisplacementIsScaledOnlyInEvexForms : (2 = 2 ∨ 2 = 4 ∨ 2 = 8) ∧ (8 = 2 ∨ 8 = 4 ∨ 8 = 8) := by decide

/-- MAXVL above 128 without AVX is ruled out, and MAXVL 128 without AVX is not (00_scope.md R6). -/
theorem test_witness_ConsistentParametersAreThoseOfTheSpec :
    Config.consistent { resetConfig with avx512vl := false, avx512f := false, avx2 := false, avx := false, maxvl := .v256 } =
      false ∧
    Config.consistent { resetConfig with avx512vl := false, avx512f := false, avx2 := false, avx := false, maxvl := .v128 } =
      true ∧ Config.consistent resetConfig = true := by decide

theorem test_witness_MemoryValueIsLittleEndian : 64 ≤ 64 ∧ 63 < 64 := by decide

theorem test_witness_StoredBytesReadBack :
    Memory.wf base.mem = true ∧ (2 ^ 64 - 2) + ([1, 0] : List Byte).length ≤ 2 ^ 64 ∧ 1 < ([1, 0] : List Byte).length := by
  decide

theorem test_witness_CanonicalMemoriesAreEqualWhenTheyReadTheSame :
    Memory.wf [(0, 1), (2 ^ 64 - 1, 2)] = true ∧
    ∀ a, readCells [(0, 1), (2 ^ 64 - 1, 2)] a = readCells [(0, 1), (2 ^ 64 - 1, 2)] a := ⟨by decide, fun _ => rfl⟩

/-- `pc` at the last address from which the instruction still ends below 2^64. -/
theorem test_witness_MmxRegisterResult :
    State.ready { base with pc := 0xFFFFFFFFFFFFFFFC } .mm = true ∧
    State.fallsThrough { base with pc := 0xFFFFFFFFFFFFFFFC } mmRR = true := by decide

/-- Unaligned with alignment checking off; aligned with it on. -/
theorem test_witness_MmxMemoryResult :
    ((withRax 0x7FFFFFFFFFF7).ready .mm = true ∧ (withRax 0x7FFFFFFFFFF7).fallsThrough mmMem = true ∧
      Reaches mmMem 8 (withRax 0x7FFFFFFFFFF7) ∧ (withRax 0x7FFFFFFFFFF7).alignmentCheckEnabled = false) ∧
    ((checking (withRax 0xFFFFFFFFFFFFFFF8)).ready .mm = true ∧
      (checking (withRax 0xFFFFFFFFFFFFFFF8)).fallsThrough mmMem = true ∧
      Reaches mmMem 8 (checking (withRax 0xFFFFFFFFFFFFFFF8)) ∧
      (checking (withRax 0xFFFFFFFFFFFFFFF8)).alignmentCheckEnabled = true ∧
      addressOf mmMem (checking (withRax 0xFFFFFFFFFFFFFFF8)) % 8 = 0) := by
  unfold Reaches
  decide

theorem test_witness_XmmRegisterResult : base.ready .xmm = true ∧ base.fallsThrough xmmRR = true := by decide

theorem test_witness_XmmMemoryResult :
    (withRax 0x7FFFFFFFFFF0).ready .xmm = true ∧ (withRax 0x7FFFFFFFFFF0).fallsThrough xmmMem = true ∧
    Reaches xmmMem 16 (withRax 0x7FFFFFFFFFF0) ∧ addressOf xmmMem (withRax 0x7FFFFFFFFFF0) % 16 = 0 := by
  unfold Reaches
  decide

theorem test_witness_VexRegisterResults :
    (base.ready .vexXmm = true ∧ base.fallsThrough (.vpmuludqVexXmm (.two true 15) 7 (.reg 7)) = true) ∧
    (base.ready .vexYmm = true ∧
      base.fallsThrough (.vpmuludqVexYmm (.three true true true true 15) 7 (.reg 7)) = true) := by decide

theorem test_witness_VexMemoryResults :
    ((withRax 0x7FFFFFFFFFF0).ready .vexXmm = true ∧
      (withRax 0x7FFFFFFFFFF0).fallsThrough (.vpmuludqVexXmm (.two true 15) 7 (.mem (.base 0 .none))) = true ∧
      Reaches (.vpmuludqVexXmm (.two true 15) 7 (.mem (.base 0 .none))) (8 * Form.vexXmm.lanes) (withRax 0x7FFFFFFFFFF0)) ∧
    ((withRax 0x1004).ready .vexYmm = true ∧
      (withRax 0x1004).fallsThrough (.vpmuludqVexYmm (.two true 15) 7 (.mem (.base 0 .none))) = true ∧
      Reaches (.vpmuludqVexYmm (.two true 15) 7 (.mem (.base 0 .none))) (8 * Form.vexYmm.lanes) (withRax 0x1004)) := by
  unfold Reaches
  decide

theorem test_witness_EvexRegisterResults :
    MaskingLegal maskedEvex ∧ maskedEvex.bcst = false ∧
    (base.ready .evexXmm = true ∧ base.fallsThrough (.vpmuludqEvexXmm maskedEvex 7 (.reg 7)) = true) ∧
    (base.ready .evexYmm = true ∧ base.fallsThrough (.vpmuludqEvexYmm maskedEvex 7 (.reg 7)) = true) ∧
    (base.ready .evexZmm = true ∧ base.fallsThrough (.vpmuludqEvexZmm maskedEvex 7 (.reg 7)) = true) := by
  unfold MaskingLegal
  decide

/-- The three cases of a lane: active, kept, cleared. -/
theorem test_witness_EvexLaneCases :
    ((plainEvex.aaa = 0#3) ∨ ((withMask 7 1 base).opmask 0).getLsbD 0 = true) ∧
    (({ maskedEvex with z := false } : Evex).aaa ≠ 0#3 ∧
      ((withMask 7 1 base).opmask ({ maskedEvex with z := false } : Evex).aaa).getLsbD 1 = false ∧
      ({ maskedEvex with z := false } : Evex).z = false) ∧
    (maskedEvex.aaa ≠ 0#3 ∧ ((withMask 7 1 base).opmask maskedEvex.aaa).getLsbD 1 = false ∧ maskedEvex.z = true) := by
  decide

/-- The last addresses at which the operand is canonical. -/
theorem test_witness_EvexMemoryResults :
    MaskingLegal maskedEvex ∧ maskedEvex.bcst = false ∧
    ((withRax 0x7FFFFFFFFFF0).ready .evexXmm = true ∧
      (withRax 0x7FFFFFFFFFF0).fallsThrough (.vpmuludqEvexXmm maskedEvex 7 (.mem (.base 0 .none))) = true ∧
      Reaches (.vpmuludqEvexXmm maskedEvex 7 (.mem (.base 0 .none))) (8 * Form.evexXmm.lanes) (withRax 0x7FFFFFFFFFF0)) ∧
    ((withRax 0x7FFFFFFFFFE0).ready .evexYmm = true ∧
      (withRax 0x7FFFFFFFFFE0).fallsThrough (.vpmuludqEvexYmm maskedEvex 7 (.mem (.base 0 .none))) = true ∧
      Reaches (.vpmuludqEvexYmm maskedEvex 7 (.mem (.base 0 .none))) (8 * Form.evexYmm.lanes) (withRax 0x7FFFFFFFFFE0)) ∧
    ((withRax 0x7FFFFFFFFFC0).ready .evexZmm = true ∧
      (withRax 0x7FFFFFFFFFC0).fallsThrough (.vpmuludqEvexZmm maskedEvex 7 (.mem (.base 0 .none))) = true ∧
      Reaches (.vpmuludqEvexZmm maskedEvex 7 (.mem (.base 0 .none))) (8 * Form.evexZmm.lanes) (withRax 0x7FFFFFFFFFC0)) := by
  unfold MaskingLegal Reaches
  decide

theorem test_witness_EvexBroadcastResults :
    MaskingLegal bcstEvex ∧ bcstEvex.bcst = true ∧
    ((withRax 0x7FFFFFFFFFF8).ready .evexXmm = true ∧
      (withRax 0x7FFFFFFFFFF8).fallsThrough (.vpmuludqEvexXmm bcstEvex 7 (.mem (.base 0 .none))) = true ∧
      Reaches (.vpmuludqEvexXmm bcstEvex 7 (.mem (.base 0 .none))) 8 (withRax 0x7FFFFFFFFFF8)) ∧
    ((withRax 0x7FFFFFFFFFF8).ready .evexYmm = true ∧
      (withRax 0x7FFFFFFFFFF8).fallsThrough (.vpmuludqEvexYmm bcstEvex 7 (.mem (.base 0 .none))) = true ∧
      Reaches (.vpmuludqEvexYmm bcstEvex 7 (.mem (.base 0 .none))) 8 (withRax 0x7FFFFFFFFFF8)) ∧
    ((withRax 0x7FFFFFFFFFF8).ready .evexZmm = true ∧
      (withRax 0x7FFFFFFFFFF8).fallsThrough (.vpmuludqEvexZmm bcstEvex 7 (.mem (.base 0 .none))) = true ∧
      Reaches (.vpmuludqEvexZmm bcstEvex 7 (.mem (.base 0 .none))) 8 (withRax 0x7FFFFFFFFFF8)) := by
  unfold MaskingLegal Reaches
  decide

theorem test_witness_FormsCompleteExactlyWhen :
    PassesGate xmmMem (withRax 0x1000) ∧ operandPermitted xmmMem (withRax 0x1000) = true ∧
    (withRax 0x1000).fallsThrough xmmMem = true := by
  unfold PassesGate
  decide

theorem test_witness_PcAdvancesByTheLength :
    (∃ t, exec mmRR base = .next t) ∧ PassesGate mmRR { base with pc := 0xFFFFFFFFFFFFFFFD } ∧
    operandPermitted mmRR { base with pc := 0xFFFFFFFFFFFFFFFD } = true ∧
    2 ^ 64 ≤ ({ base with pc := 0xFFFFFFFFFFFFFFFD } : State).pc.toNat + mmRR.len ∧
    Instr.rm (.pmuludqMm none 0 (.mem (.ripRel 4))) = .mem (.ripRel 4) := by
  refine ⟨exists_next (by decide), ?_⟩
  unfold PassesGate
  decide

theorem test_witness_VexFormsZeroUpperBits :
    (∃ t, exec (.vpmuludqVexXmm (.two false 2) 1 (.reg 3)) base = .next t) ∧
    ∃ t, exec (.vpmuludqVexYmm (.two false 2) 1 (.reg 3)) base = .next t :=
  ⟨exists_next (by decide), exists_next (by decide)⟩

theorem test_witness_EvexFormsZeroUpperBits :
    (∃ t, exec (.vpmuludqEvexXmm maskedEvex 1 (.reg 3)) base = .next t) ∧
    (∃ t, exec (.vpmuludqEvexYmm maskedEvex 1 (.reg 3)) base = .next t) ∧
    ∃ t, exec (.vpmuludqEvexZmm maskedEvex 1 (.reg 3)) base = .next t ∧ base.cfg.maxvl.bits ≤ 512 :=
  ⟨exists_next (by decide), exists_next (by decide),
    (exists_next (o := exec (.vpmuludqEvexZmm maskedEvex 1 (.reg 3)) base) (by decide)).imp
      fun _ h => ⟨h, by decide⟩⟩

/-- K7 with other bits from 8 up, and another K1; without a writemask nothing is asked. -/
theorem test_witness_OnlyTheLowMaskBitsAreRead :
    maskedEvex.aaa ≠ 0#3 ∧ plainEvex.aaa = 0#3 ∧
    ∀ j, j < Form.evexZmm.lanes →
      (#v[0, 5, 0, 0, 0, 0, 0, 0xFFFFFFFFFFFFFFA5] : Vector Quad 8)[maskedEvex.aaa.toNat].getLsbD j =
        ((withMask 7 0xA5 base).opmask maskedEvex.aaa).getLsbD j := by decide

/-- Two states that differ only in odd doublewords: all of the registers zero, and one of each kind with its upper halves set. -/
def oddState : State :=
  (base.setVec 3 (pack 64 (fun _ => 0xFFFFFFFF00000000) 8)).setMm 1 0xFFFFFFFF00000000

theorem test_witness_OddDoublewordsDoNotMatter :
    xmmRR.rm = .reg 1 ∧ SameEvenDwords base oddState ∧ (∃ t, exec xmmRR base = .next t) ∧
    ∃ t, exec xmmRR oddState = .next t :=
  ⟨rfl, ⟨rfl, by decide, by decide⟩, exists_next (by decide), exists_next (by decide)⟩

theorem test_witness_AllOnesMaskIsNoMask :
    (∀ j, j < Form.evexZmm.lanes → ((withMask 7 0xFF base).opmask maskedEvex.aaa).getLsbD j = true) ∧
    maskedEvex.aaa ≠ 0#3 := by decide

theorem test_witness_AllZerosMaskKeepsOrClears :
    maskedEvex.aaa ≠ 0#3 ∧
    (∀ j, j < Form.evexZmm.lanes → ((withMask 7 0xFFFFFFFFFFFFFF00 base).opmask maskedEvex.aaa).getLsbD j = false) ∧
    (∃ t, exec (.vpmuludqEvexZmm maskedEvex 1 (.reg 3)) (withMask 7 0xFFFFFFFFFFFFFF00 base) = .next t) ∧
    (∃ t, exec (.vpmuludqEvexZmm { maskedEvex with z := false } 1 (.reg 3)) (withMask 7 0xFFFFFFFFFFFFFF00 base) = .next t) ∧
    maskedEvex.z = true :=
  ⟨by decide, by decide, exists_next (by decide), exists_next (by decide), rfl⟩

theorem test_witness_FormsAgreeOnTheSameInputs :
    ((∃ t, exec xmmRR base = .next t) ∧ (∃ t, exec (.vpmuludqVexXmm (.two false 0) 0 (.reg 1)) base = .next t) ∧
      vexVNumber (.two false 0) = regNumber4 (rexR none) 0 ∧ vexR (.two false 0) = rexR none ∧
      vexB (.two false 0) = rexB none) ∧
    ((∃ t, exec (.vpmuludqEvexXmm plainEvex 1 (.reg 3)) base = .next t) ∧
      (∃ t, exec (.vpmuludqEvexYmm plainEvex 1 (.reg 3)) base = .next t) ∧
      (∃ t, exec (.vpmuludqVexYmm (.two false 2) 1 (.reg 3)) base = .next t) ∧
      (∃ t, exec (.vpmuludqVexXmm (.two false 2) 1 (.reg 3)) base = .next t) ∧
      plainEvex.aaa = 0#3 ∧ evexVNumber plainEvex = vexVNumber (.two false 2) ∧
      evexRmNumber plainEvex 3 = regNumber4 (vexB (.two false 2)) 3) :=
  ⟨⟨exists_next (by decide), exists_next (by decide), by decide⟩,
    exists_next (by decide), exists_next (by decide), exists_next (by decide),
    exists_next (by decide), by decide⟩

/-- The clauses on memory operands. -/
theorem test_witness_FormsAgreeOnTheSameInputs_memory :
    ((∃ t, exec xmmMem base = .next t) ∧
      (∃ t, exec (.vpmuludqVexXmm (.two false 0) 0 (.mem (.base 0 .none))) base = .next t) ∧
      vexVNumber (.two false 0) = regNumber4 (rexR none) 0 ∧ vexR (.two false 0) = rexR none ∧
      addressOf (.vpmuludqVexXmm (.two false 0) 0 (.mem (.base 0 .none))) base = addressOf xmmMem base) ∧
    ((∃ t, exec (.vpmuludqEvexXmm plainEvex 1 (.mem (.base 0 .none))) base = .next t) ∧
      (∃ t, exec (.vpmuludqEvexYmm plainEvex 1 (.mem (.base 0 .none))) base = .next t) ∧
      (∃ t, exec (.vpmuludqVexYmm (.two false 2) 1 (.mem (.base 0 .none))) base = .next t) ∧
      (∃ t, exec (.vpmuludqVexXmm (.two false 2) 1 (.mem (.base 0 .none))) base = .next t) ∧
      plainEvex.aaa = 0#3 ∧ plainEvex.bcst = false ∧ evexVNumber plainEvex = vexVNumber (.two false 2) ∧
      addressOf (.vpmuludqEvexXmm plainEvex 1 (.mem (.base 0 .none))) base =
        addressOf (.vpmuludqVexXmm (.two false 2) 1 (.mem (.base 0 .none))) base ∧
      addressOf (.vpmuludqEvexYmm plainEvex 1 (.mem (.base 0 .none))) base =
        addressOf (.vpmuludqVexYmm (.two false 2) 1 (.mem (.base 0 .none))) base) :=
  ⟨⟨exists_next (by decide), exists_next (by decide), by decide⟩,
    exists_next (by decide), exists_next (by decide), exists_next (by decide),
    exists_next (by decide), by decide⟩

/-- Each feature flag off in turn, in 64-bit mode. -/
theorem test_witness_MissingFeatureRaisesUd :
    base.mode64 = true ∧
    (withCfg (fun c => { c with sse2 := false }) base).cfg.sse2 = false ∧
    (withCfg (fun c => { c with avx := false }) base).cfg.avx = false ∧
    (withCfg (fun c => { c with avx2 := false }) base).cfg.avx2 = false ∧
    (withCfg (fun c => { c with avx512vl := false }) base).cfg.avx512vl = false ∧
    (withCfg (fun c => { c with avx512f := false }) base).cfg.avx512f = false := by decide

/-- 64-bit mode with CR4 and XCR0 as after reset: every enable is off. -/
theorem test_witness_DisabledStateRaisesUd :
    ({ State.reset with mode64 := true } : State).mode64 = true ∧
    ({ State.reset with mode64 := true } : State).cr4.getLsbD 9 = false ∧
    ({ State.reset with mode64 := true } : State).cr4.getLsbD 18 = false ∧
    ({ State.reset with mode64 := true } : State).xcr0.getLsbD 2 = false ∧
    ({ State.reset with mode64 := true } : State).xcr0.getLsbD 7 = false ∧
    (Instr.form (.vpmuludqVexXmm (.two false 2) 1 (.reg 3))).isVexOrEvex = true := by decide

theorem test_witness_Cr0EmStopsOnlyLegacyForms :
    mmRR.form.isVexOrEvex = false ∧ (base.withEm true).mode64 = true ∧ (base.withEm true).cr0.getLsbD 2 = true ∧
    (Instr.form (.vpmuludqEvexZmm plainEvex 1 (.reg 3))).isVexOrEvex = true := by decide

theorem test_witness_Cr0TsRaisesNm :
    ({ base with cr0 := 8 } : State).mode64 = true ∧
    udCondition xmmRR.form (illegalEncoding xmmRR) { base with cr0 := 8 } = false ∧
    ({ base with cr0 := 8 } : State).cr0.getLsbD 3 = true := by decide

theorem test_witness_PendingX87ExceptionStopsOnlyForm1 :
    ({ base with x87ExceptionPending := true } : State).mode64 = true ∧
    udCondition .mm false { base with x87ExceptionPending := true } = false ∧
    ({ base with x87ExceptionPending := true } : State).ts = false ∧
    ({ base with x87ExceptionPending := true } : State).x87ExceptionPending = true ∧ xmmRR.form ≠ .mm := by decide

theorem test_witness_IllegalEvexCombinationsRaiseUd :
    base.mode64 = true ∧ bcstEvex.bcst = true ∧ ({ plainEvex with z := true } : Evex).z = true ∧
    ({ plainEvex with z := true } : Evex).aaa = 0#3 := by decide

theorem test_witness_AlignmentFaults :
    ((withRax 0x1008).ready .xmm = true ∧ addressOf xmmMem (withRax 0x1008) % 16 ≠ 0) ∧
    ((checking (withRax 0x2003)).ready .mm = true ∧ Reaches mmMem 8 (checking (withRax 0x2003)) ∧
      (checking (withRax 0x2003)).cr0.getLsbD 18 = true ∧ (checking (withRax 0x2003)).rflags.getLsbD 18 = true ∧
      (checking (withRax 0x2003)).cpl = 3#2 ∧ addressOf mmMem (checking (withRax 0x2003)) % 8 ≠ 0) ∧ xmmRR.form ≠ .mm := by
  unfold Reaches
  decide

/-- A pair of a state and an instruction whose access has the segment, with one byte of the operand not canonical. -/
def badAddress (i : Instr) (s : State) (seg : Segment) : Bool :=
  match accessOfInstr i s with
  | none => false
  | some a => !a.misaligned16 && !s.canonicalRange a.addr.toNat a.bytes && a.segment == seg

/-- The first address whose eighth byte is not canonical, through DS and through SS. -/
theorem test_witness_NonCanonicalOperandFaults :
    (PassesGate mmMem (withRax 0x7FFFFFFFFFF9) ∧ badAddress mmMem (withRax 0x7FFFFFFFFFF9) .ds = true) ∧
    (PassesGate (.pmuludqMm none 0 (.mem (.base 5 (.disp8 0)))) (withGpr 5 0xFFFFFFFFFFFFFFF9 base) ∧
      badAddress (.pmuludqMm none 0 (.mem (.base 5 (.disp8 0)))) (withGpr 5 0xFFFFFFFFFFFFFFF9 base) .ss = true) := by
  unfold PassesGate
  decide

/-- An access whose last byte lies in the hole. -/
theorem test_witness_UnreadableOperandRaisesPf :
    PassesGate mmMem (hole (withRax 0x4FF9)) ∧
    (match accessOfInstr mmMem (hole (withRax 0x4FF9)) with
      | none => false
      | some a => !a.misaligned16 && (hole (withRax 0x4FF9)).canonicalRange a.addr.toNat a.bytes &&
          !(hole (withRax 0x4FF9)).readableRange a.addr.toNat a.bytes) = true := by
  unfold PassesGate
  decide

theorem test_witness_RegisterOnlyFormsRaiseNoMemoryFault :
    mmRR.rm = .reg 1 ∧ exec mmRR (base.withEm true) = .fault (.invalidOpcode 0x4000) :=
  ⟨rfl, ud_of_faultOf (by decide)⟩

theorem test_witness_FaultsReportTheInstructionAddress :
    step (program [0x0F, 0xF4, 0xC1] (base.withEm true)) = .fault (.invalidOpcode 0x4000) :=
  ud_of_faultOf (by decide)

/-- A run of two steps, for the statements over runs. -/
theorem test_witness_runs :
    ∃ t, Sys2Proof.core.run 2 (program [0x0F, 0xF4, 0xC1, 0x0F, 0xF4, 0xC0] base) = .next t :=
  exists_next (o := Sys2Proof.core.run 2 (program [0x0F, 0xF4, 0xC1, 0x0F, 0xF4, 0xC0] base)) (by decide)

theorem test_witness_NoFormWritesAnOpmaskRegister :
    ∃ t, exec (.vpmuludqEvexZmm maskedEvex 1 (.reg 3)) base = .next t := exists_next (by decide)

end Sys2Proof.Tests
end

section
/-! PROOFS. 00_scope.md: the parameters of the processor (R6, R8). -/

namespace Sys2Proof

/-- The largest `MAXVL` of R6 is the one its width in bits names. -/
theorem MaxVl.eq_v512_iff (m : MaxVl) : m = .v512 ↔ m.bits = 512 := by
  cases m <;> simp [MaxVl.bits]

/-- The smallest `MAXVL` of R6 is the one its width in bits names. -/
theorem MaxVl.eq_v128_iff (m : MaxVl) : m = .v128 ↔ m.bits = 128 := by
  cases m <;> simp [MaxVl.bits]

/-- Settles O57: the check is a conjunction of one disjunction per constraint of R6 and R8; each disjunction is the implication
from the negation of its left side, and the values of `MAXVL` it names are the widths 512 and 128. -/
theorem consistentParametersAreThoseOfTheSpec : Obligations.ConsistentParametersAreThoseOfTheSpec := by
  intro c
  simp only [Config.consistent, Bool.and_eq_true, Bool.or_eq_true, beq_iff_eq, decide_eq_true_eq, and_assoc]
  simp only [or_iff_not_imp_left, Bool.not_eq_true, Bool.not_eq_false', MaxVl.eq_v512_iff, MaxVl.eq_v128_iff]

end Sys2Proof
end

section
/-! PROOFS. 10_state.md, the facts its statements share: what a ready state is, which vector register an instruction can write and how
far up, the frame of an instruction, where its fault points, and the induction over a run. -/

namespace Sys2Proof.Machine

open Sys2Proof.Statements

/-! ## A ready state -/

/-- What a ready state says of the mode and the parameters: 64-bit mode, the form's features, and registers wide enough. -/
theorem State.ready_parameters {s : State} {f : Form} (h : s.ready f = true) :
    s.mode64 = true ∧ featureAvailable s.cfg f = true ∧ neededMaxVl f ≤ s.cfg.maxvl.bits := by
  simp only [State.ready, udCondition, Bool.and_eq_true, Bool.not_eq_true', Bool.or_eq_false_iff, Bool.not_eq_false',
    decide_eq_true_eq] at h
  obtain ⟨⟨⟨⟨hmode, ⟨⟨-, hfeature⟩, -⟩, -⟩, -⟩, -⟩, hwidth⟩ := h
  exact ⟨hmode, hfeature, hwidth⟩

/-- In 64-bit mode there are at least 16 vector registers. -/
theorem State.sixteen_le_nvec {s : State} (h : s.mode64 = true) : 16 ≤ s.nvec := by
  cases hf : s.cfg.avx512f <;> simp [State.nvec, h, hf]

/-- In 64-bit mode with AVX512F there are 32 vector registers. -/
theorem State.nvec_of_avx512f {s : State} (h : s.mode64 = true) (hf : s.cfg.avx512f = true) : s.nvec = 32 := by
  simp [State.nvec, h, hf]

/-- A ready EVEX form finds AVX512F, and so 32 vector registers. -/
theorem State.nvec_of_ready_evex {s : State} {f : Form} (hf : f = .evexXmm ∨ f = .evexYmm ∨ f = .evexZmm)
    (h : s.ready f = true) : s.nvec = 32 := by
  obtain ⟨hmode, hfeature, -⟩ := State.ready_parameters h
  refine State.nvec_of_avx512f hmode ?_
  rcases hf with rfl | rfl | rfl <;> simp_all [featureAvailable]

/-- A register number of three bits and one extension bit is below 16 (30_encoding.md R82). -/
theorem regNumber4_lt : ∀ ext field, (regNumber4 ext field).toNat < 16 := by decide

/-- A ready form writes a register that exists. -/
theorem vecDestination_lt_nvec {i : Instr} {s : State} {d : BitVec 5} (h : s.ready i.form = true)
    (hd : vecDestination i = some d) : d.toNat < s.nvec := by
  have hlow : 16 ≤ s.nvec := State.sixteen_le_nvec (State.ready_parameters h).1
  cases i with
  | pmuludqMm => exact nomatch hd
  | pmuludqXmm rex reg => cases hd; exact (regNumber4_lt _ _).trans_le hlow
  | vpmuludqVexXmm vex reg => cases hd; exact (regNumber4_lt _ _).trans_le hlow
  | vpmuludqVexYmm vex reg => cases hd; exact (regNumber4_lt _ _).trans_le hlow
  | vpmuludqEvexXmm => exact State.nvec_of_ready_evex (.inl rfl) h ▸ d.isLt
  | vpmuludqEvexYmm => exact State.nvec_of_ready_evex (.inr (.inl rfl)) h ▸ d.isLt
  | vpmuludqEvexZmm => exact State.nvec_of_ready_evex (.inr (.inr rfl)) h ▸ d.isLt

/-! ## What an instruction leaves unchanged -/

/-- The frame holds between a state and itself. -/
theorem SameElsewhere.refl (s : State) : SameElsewhere s s := by simp [SameElsewhere]

/-- Frames compose. -/
theorem SameElsewhere.trans {s t u : State} (hst : SameElsewhere s t) (htu : SameElsewhere t u) : SameElsewhere s u := by
  simp_all [SameElsewhere]

/-- Advancing `pc` leaves the vector registers. -/
@[simp] theorem advance_vec (s : State) (len : Nat) (n : BitVec 5) : (s.advance len).vec n = s.vec n := rfl

/-- An instruction changes vector registers, MMX registers and `pc` only. -/
theorem exec_sameElsewhere {i : Instr} {s t : State} (h : exec i s = .next t) : SameElsewhere s t := by
  obtain ⟨-, -, -, ⟨d, q, -, rfl⟩ | ⟨d, val, -, rfl⟩⟩ := exec_next h
  · exact SameElsewhere.refl s
  · exact SameElsewhere.refl s

/-- An instruction leaves `pc` at the next one. -/
theorem exec_pc {i : Instr} {s t : State} (h : exec i s = .next t) : t.pc = s.pc + BitVec.ofNat 64 i.len := by
  obtain ⟨-, -, -, ⟨d, q, -, rfl⟩ | ⟨d, val, -, rfl⟩⟩ := exec_next h
  · rfl
  · rfl

/-- An instruction leaves every vector register it does not name as destination. -/
theorem exec_vec_of_not_destination {i : Instr} {s t : State} {n : BitVec 5} (h : exec i s = .next t)
    (hn : vecDestination i ≠ some n) : t.vec n = s.vec n := by
  obtain ⟨-, -, -, ⟨d, q, -, rfl⟩ | ⟨d, val, hd, rfl⟩⟩ := exec_next h
  · rfl
  · rw [advance_vec, setVec_vec_of_ne]
    rintro rfl
    exact hn hd

/-- A register from NVEC up is left alone. -/
theorem exec_vec_from_nvec {i : Instr} {s t : State} {n : BitVec 5} (h : exec i s = .next t) (hn : s.nvec ≤ n.toNat) :
    t.vec n = s.vec n :=
  exec_vec_of_not_destination h fun hd => (vecDestination_lt_nvec (exec_next h).1 hd).not_ge hn

/-! ## How far up a vector register is written -/

/-- The width a vector form needs is that of its lanes. -/
theorem neededMaxVl_eq_lanes {f : Form} (hf : f ≠ .mm) : neededMaxVl f = 64 * f.lanes := by
  cases f with
  | mm => exact absurd rfl hf
  | _ => rfl

/-- No form has more lanes than a register of 512 bits. -/
theorem Form.lanes_le_eight (f : Form) : f.lanes ≤ 8 := by cases f <;> decide

/-- The lanes of a ready vector form end at or below MAXVL. -/
theorem State.lanes_le_maxvl {s : State} {f : Form} (hf : f ≠ .mm) (h : s.ready f = true) :
    64 * f.lanes ≤ s.cfg.maxvl.bits := by
  obtain ⟨-, -, hwidth⟩ := State.ready_parameters h
  exact neededMaxVl_eq_lanes hf ▸ hwidth

/-- A bit clear in every vector register stays so when the value written has it clear. -/
theorem setVec_advance_bit {s : State} {d : BitVec 5} {val : Vec} {len b : Nat} (hs : ∀ n, (s.vec n).getLsbD b = false)
    (hval : val.getLsbD b = false) (n : BitVec 5) : (((s.setVec d val).advance len).vec n).getLsbD b = false := by
  rw [advance_vec, setVec_vec]
  split
  · exact hval
  · exact hs n

/-- A VEX form sets no bit from MAXVL up. -/
theorem execVex_bit {f : Form} {len : Nat} {vex : Vex} {reg : BitVec 3} {rm : Rm} {s t : State} {b : Nat} (hf : f ≠ .mm)
    (h : execVex f len vex reg rm s = .next t) (hb : s.cfg.maxvl.bits ≤ b) (hs : ∀ n, (s.vec n).getLsbD b = false) :
    ∀ n, (t.vec n).getLsbD b = false := by
  obtain ⟨hready, -, src, -, rfl⟩ := execVex_next.mp h
  exact setVec_advance_bit hs (mulLanes_above _ _ (Form.lanes_le_eight f) ((State.lanes_le_maxvl hf hready).trans hb))

/-- An EVEX form sets no bit from MAXVL up. -/
theorem execEvex_bit {f : Form} {len : Nat} {e : Evex} {reg : BitVec 3} {rm : Rm} {s t : State} {b : Nat} (hf : f ≠ .mm)
    (h : execEvex f len e reg rm s = .next t) (hb : s.cfg.maxvl.bits ≤ b) (hs : ∀ n, (s.vec n).getLsbD b = false) :
    ∀ n, (t.vec n).getLsbD b = false := by
  obtain ⟨hready, -, -, src, -, rfl⟩ := execEvex_next.mp h
  exact setVec_advance_bit hs
    (mulLanesMasked_above _ _ _ _ _ (Form.lanes_le_eight f) ((State.lanes_le_maxvl hf hready).trans hb))

/-- No instruction sets a bit from MAXVL up: form 1 writes no vector register, form 2 keeps the bits from 128 up, and the lanes of
the others end at MAXVL. -/
theorem exec_bit_from_maxvl {i : Instr} {s t : State} {b : Nat} (h : exec i s = .next t) (hb : s.cfg.maxvl.bits ≤ b)
    (hs : ∀ n, (s.vec n).getLsbD b = false) : ∀ n, (t.vec n).getLsbD b = false := by
  cases i with
  | pmuludqMm rex reg rm =>
    intro n
    rw [exec_vec_of_not_destination h nofun]
    exact hs n
  | pmuludqXmm rex reg rm =>
    obtain ⟨hready, -, src, -, rfl⟩ := execPmuludqXmm_next.mp h
    have h128 : 128 ≤ b := (State.lanes_le_maxvl (f := .xmm) nofun hready).trans hb
    refine setVec_advance_bit hs ?_
    rw [replaceLow128_getLsbD, if_neg h128.not_gt]
    exact hs _
  | vpmuludqVexXmm => exact execVex_bit (f := .vexXmm) nofun h hb hs
  | vpmuludqVexYmm => exact execVex_bit (f := .vexYmm) nofun h hb hs
  | vpmuludqEvexXmm => exact execEvex_bit (f := .evexXmm) nofun h hb hs
  | vpmuludqEvexYmm => exact execEvex_bit (f := .evexYmm) nofun h hb hs
  | vpmuludqEvexZmm => exact execEvex_bit (f := .evexZmm) nofun h hb hs

/-- An instruction keeps the invariant. -/
theorem exec_keeps_invariant {i : Instr} {s t : State} (hs : Invariant s) (h : exec i s = .next t) : Invariant t := by
  obtain ⟨hconsistent, hwf, hbits, hregs⟩ := hs
  obtain ⟨hcfg, hmode, -, -, -, -, -, -, -, -, -, -, -, hmem, -⟩ := exec_sameElsewhere h
  have hnvec : t.nvec = s.nvec := by simp [State.nvec, hcfg, hmode]
  refine ⟨hcfg ▸ hconsistent, hmem ▸ hwf, fun n b hb => ?_, fun n hn => ?_⟩
  · rw [hcfg] at hb
    exact exec_bit_from_maxvl h hb (hbits · b hb) n
  · rw [hnvec] at hn
    rw [exec_vec_from_nvec h hn, hregs n hn]

/-! ## Completing, and being refused at the top of the address space -/

/-- Completing is refused where `pc` would reach 2^64. -/
theorem retire_of_ge {len : Nat} {s : State} (h : 2 ^ 64 ≤ s.pc.toNat + len) : retire len s = .refused .programWraps :=
  if_neg h.not_gt

/-- Past the checks, and with its operand readable, an instruction only has to complete. -/
theorem exec_eq_retire {i : Instr} {s : State} (hgate : PassesGate i s) (hop : operandPermitted i s = true) :
    ∃ u, exec i s = retire i.len u ∧ u.pc = s.pc := by
  obtain ⟨k, hk, hreg, hmem⟩ := exec_shape i s
  obtain ⟨hready, hlegal⟩ := hgate
  rw [hlegal, gated_of_ready k hready] at hk
  cases ha : accessOfInstr i s with
  | none =>
    obtain ⟨u, hu, hpc⟩ := hreg ha
    exact ⟨u, hk.trans hu, hpc⟩
  | some a =>
    obtain ⟨g, hg, hpc⟩ := hmem a ha
    have hread : a.permitted s = true := by simpa [operandPermitted, ha] using hop
    exact ⟨_, by rw [hk, hg, Access.load_of_permitted hread, withValue_ok], hpc _⟩

/-! ## RIP-relative operands -/

/-- A RIP-relative address starts at the next instruction and has neither index nor scale (30_encoding.md R88). -/
theorem effectiveAddress_ripRel (c : AddrContext) (s : State) (d : BitVec 32) :
    effectiveAddress c s (.ripRel d) = (s.pc + BitVec.ofNat 64 c.len) + d.signExtend 64 := by
  simp [effectiveAddress, baseValue, indexRegister, registerOrZero, dispOf, dispValue]

/-- The read of a memory operand is at its effective address, computed with the instruction's own length. -/
theorem accessOfInstr_mem {i : Instr} {m : MemOperand} (s : State) (h : i.rm = .mem m) :
    ∃ c a, accessOfInstr i s = some a ∧ a.addr = effectiveAddress c s m ∧ c.len = i.len := by
  cases i <;> cases h <;> exact ⟨_, _, rfl, rfl, rfl⟩

/-! ## Where a fault points -/

/-- The fault for a bad address reports the address it is raised with. -/
theorem Segment.addressFault_rip (seg : Segment) (rip : Quad) : (seg.addressFault rip).rip = rip := by cases seg <;> rfl

/-- A read's fault reports `pc`. -/
theorem Access.fault?_rip {a : Access} {s : State} {e : Fault} (h : a.fault? s = some e) : e.rip = s.pc := by
  rcases Access.fault?_cases h with ⟨-, rfl⟩ | ⟨-, rfl⟩ | ⟨-, code, address, rfl⟩ | ⟨-, -, rfl⟩
  · rfl
  · exact Segment.addressFault_rip a.segment s.pc
  · rfl
  · rfl

/-- An instruction's fault reports `pc`. -/
theorem exec_fault_rip {i : Instr} {s : State} {e : Fault} (h : exec i s = .fault e) : e.rip = s.pc := by
  rcases exec_fault h with ⟨-, rfl⟩ | ⟨-, rfl⟩ | ⟨-, -, rfl⟩ | ⟨a, -, ha⟩
  · rfl
  · rfl
  · rfl
  · exact Access.fault?_rip ha

/-- The only fault of a fetch is #UD, for an encoding the decoder calls invalid. -/
theorem fetch_fault {s : State} {e : Fault} (h : fetch s = .error (.fault e)) :
    decode s.fetchWindow = .invalid ∧ e = .invalidOpcode s.pc := by
  unfold fetch raise at h
  split at h
  · exact nomatch h
  split at h
  · exact nomatch h
  · next hd => cases h; exact ⟨hd, rfl⟩
  · exact nomatch h
  · split at h <;> exact nomatch h

/-- A step's fault is the fetch's #UD or the executed instruction's. -/
theorem step_fault {s : State} {e : Fault} (h : step s = .fault e) :
    e = .invalidOpcode s.pc ∨ ∃ i, exec i s = .fault e := by
  unfold step at h
  split at h
  · exact .inr ⟨_, h⟩
  · next hf => exact .inl (fetch_fault (h ▸ hf)).2

/-! ## Length and `pc` -/

/-- Every instruction has the length of its encoding, within the bounds of its form (30_encoding.md R92). -/
theorem instr_length : ∀ i : Instr, Laws.LengthBounds.Statement i
  | .pmuludqMm rex reg rm => Laws.LengthBounds.pmuludqMm rex reg rm
  | .pmuludqXmm rex reg rm => Laws.LengthBounds.pmuludqXmm rex reg rm
  | .vpmuludqVexXmm vex reg rm => Laws.LengthBounds.vpmuludqVexXmm vex reg rm
  | .vpmuludqVexYmm vex reg rm => Laws.LengthBounds.vpmuludqVexYmm vex reg rm
  | .vpmuludqEvexXmm e reg rm => Laws.LengthBounds.vpmuludqEvexXmm e reg rm
  | .vpmuludqEvexYmm e reg rm => Laws.LengthBounds.vpmuludqEvexYmm e reg rm
  | .vpmuludqEvexZmm e reg rm => Laws.LengthBounds.vpmuludqEvexZmm e reg rm

/-- The bounds of every form lie between 3 and 11 bytes. -/
theorem length_bounds_within (f : Form) : 3 ≤ (Laws.LengthBounds.bounds f).1 ∧ (Laws.LengthBounds.bounds f).2 ≤ 11 := by
  cases f <;> decide

/-- Every instruction is 3 to 11 bytes long. -/
theorem instr_len_bounds (i : Instr) : 3 ≤ i.len ∧ i.len ≤ 11 := by
  obtain ⟨-, hlo, hhi⟩ := instr_length i
  obtain ⟨h3, h11⟩ := length_bounds_within i.form
  exact ⟨h3.trans hlo, hhi.trans h11⟩

/-- A step moves `pc` up by the length of an instruction, without a wrap. -/
theorem step_pc {s t : State} (h : step s = .next t) : s.pc.toNat + 3 ≤ t.pc.toNat ∧ t.pc.toNat ≤ s.pc.toNat + 11 := by
  obtain ⟨i, -, -, -, hexec⟩ := step_next h
  obtain ⟨-, -, hlt, -⟩ := exec_next hexec
  have hlen := instr_len_bounds i
  rw [exec_pc hexec, BitVec.toNat_add, BitVec.toNat_ofNat]
  omega

/-! ## Runs -/

/-- A run of `n + 1` steps that goes on is a step and a run of `n`. -/
theorem run_succ_next {M : Host.Core} {n : Nat} {s t : M.State} (h : M.run (n + 1) s = .next t) :
    ∃ u, M.step s = .next u ∧ M.run n u = .next t := by
  rw [Host.Core.run] at h
  split at h
  · next u hu => exact ⟨u, hu, h⟩
  · exact nomatch h
  · exact nomatch h

/-- A relation that holds over no steps, and is extended by a step taken first, holds over every run. -/
theorem run_induction {R : Nat → State → State → Prop} (zero : ∀ s, R 0 s s)
    (succ : ∀ n s u t, step s = .next u → R n u t → R (n + 1) s t) (n : Nat) (s t : State)
    (h : Sys2Proof.core.run n s = .next t) : R n s t := by
  induction n generalizing s with
  | zero =>
    cases h
    exact zero t
  | succ n ih =>
    obtain ⟨u, hstep, hrun⟩ := run_succ_next h
    exact succ n s u t hstep (ih u hrun)

end Sys2Proof.Machine
end

section
/-! PROOFS. 10_state.md: the state after reset, the invariant, `pc`, and what a run changes. -/

namespace Sys2Proof

open Sys2Proof.Machine

/-- Settles O1: every listed register file is a replicated 0, and every other register is its literal in `State.reset`. -/
theorem resetHoldsListedRegisterValues : Obligations.ResetHoldsListedRegisterValues := by
  refine ⟨fun n => ?_, fun n => ?_, fun n => ?_, fun n _ => ?_, by decide⟩
  · exact Vector.getElem_replicate n.isLt
  · exact Vector.getElem_replicate n.isLt
  · exact Vector.getElem_replicate n.isLt
  · exact Vector.getElem_replicate n.isLt

/-- Settles O2: the parameters of the test vectors are consistent, the memory lists nothing, and every vector register is 0 (O1). -/
theorem resetSatisfiesInvariant : Obligations.ResetSatisfiesInvariant := by
  obtain ⟨hvec, -⟩ := resetHoldsListedRegisterValues
  refine ⟨by decide, reset_memory_wf, fun n b _ => ?_, fun n _ => hvec n⟩
  rw [hvec n]
  exact BitVec.getLsbD_zero

/-- Settles O3: a step that goes on executed an instruction, and an instruction keeps the invariant, because it writes at most one
vector register, below NVEC, and in it sets no bit from MAXVL up. -/
theorem stepKeepsInvariant : Obligations.StepKeepsInvariant := by
  intro s t hs h
  obtain ⟨i, -, -, -, hexec⟩ := step_next h
  exact exec_keeps_invariant hs hexec

/-- Settles O33: completing is the only place that moves `pc`, or refuses to; a RIP-relative address is computed from the length the
instruction completes with. -/
theorem pcAdvancesByTheLength : Obligations.PcAdvancesByTheLength := by
  refine ⟨fun i s t h => exec_pc h, fun i s hgate hop hge => ?_, effectiveAddress_ripRel, fun i s d h => ?_⟩
  · obtain ⟨u, hu, hpc⟩ := exec_eq_retire hgate hop
    rw [hu, retire_of_ge (hpc ▸ hge)]
  · obtain ⟨c, a, ha, haddr, hlen⟩ := accessOfInstr_mem s h
    exact ⟨a, ha, by rw [haddr, effectiveAddress_ripRel, hlen]⟩

/-- Settles O52: a fault of the fetch is raised at `pc`, and so is every fault of an instruction. -/
theorem faultsReportTheInstructionAddress : Obligations.FaultsReportTheInstructionAddress := by
  intro s e h
  rcases step_fault h with rfl | ⟨i, hexec⟩
  · rfl
  · exact exec_fault_rip hexec

/-- Settles O54: the opmask registers are in the frame of every instruction. -/
theorem noFormWritesAnOpmaskRegister : Obligations.NoFormWritesAnOpmaskRegister := by
  intro i s t h
  obtain ⟨-, -, hk, -⟩ := exec_sameElsewhere h
  exact hk

/-- Settles O55, by induction on the run: each step keeps the frame of the instruction it executes, and frames compose. -/
theorem runsChangeOnlyVectorAndMmxRegisters : Obligations.RunsChangeOnlyVectorAndMmxRegisters := by
  refine run_induction (R := fun _ => SameElsewhere) SameElsewhere.refl fun n s u t hstep hrun => ?_
  obtain ⟨i, -, -, -, hexec⟩ := step_next hstep
  exact (exec_sameElsewhere hexec).trans hrun

/-- Settles O56, by induction on the run: each step moves `pc` up by 3 to 11 bytes. -/
theorem runsMoveStraightForward : Obligations.RunsMoveStraightForward := by
  refine run_induction (fun s => by simp) fun n s u t hstep hrun => ?_
  have := step_pc hstep
  omega

end Sys2Proof
end

section
/-! PROOFS. 20_memory.md, the facts its statements share: the cells of a canonical memory, what a stored run of bytes reads back as, and
that the frame of a run holds memory. -/

namespace Sys2Proof.Machine

/-! ## The cells of a canonical memory -/

/-- What the canonical form says of the first cell, and of the rest. -/
theorem cellsWfFrom_cons {lo a : Nat} {b : Byte} {rest : List Host.Cell} :
    cellsWfFrom lo ((a, b) :: rest) = true ↔
      lo ≤ a ∧ a < 2 ^ 64 ∧ b ≠ unlistedByte ∧ cellsWfFrom (a + 1) rest = true := by
  simp [cellsWfFrom, and_assoc]

/-- The address of the first cell reads as its byte. -/
@[simp] theorem readCells_cons_self (a : Nat) (b : Byte) (rest : List Host.Cell) : readCells ((a, b) :: rest) a = b :=
  if_pos rfl

/-- Every other address reads as it does in the rest. -/
theorem readCells_cons_of_ne {a x : Nat} (h : x ≠ a) (b : Byte) (rest : List Host.Cell) :
    readCells ((a, b) :: rest) x = readCells rest x :=
  if_neg h.symm

/-- The first cell has the least address that a read shows to be listed. -/
theorem cons_address_le {lo a x : Nat} {b : Byte} {rest : List Host.Cell} (hm : cellsWfFrom lo ((a, b) :: rest) = true)
    (hx : readCells ((a, b) :: rest) x ≠ unlistedByte) : a ≤ x := by
  obtain ⟨-, hlt, hb, hrest⟩ := cellsWfFrom_cons.mp hm
  by_contra hxa
  exact hx (readCells_below _ a (by omega) (cellsWfFrom_cons.mpr ⟨le_rfl, hlt, hb, hrest⟩))

/-- Taking the same first address off two canonical memories that read the same leaves memories that read the same. -/
theorem readCells_rest_congr {a : Nat} {b b' : Byte} {rest rest' : List Host.Cell} (hrest : cellsWfFrom (a + 1) rest = true)
    (hrest' : cellsWfFrom (a + 1) rest' = true) (h : ∀ x, readCells ((a, b) :: rest) x = readCells ((a, b') :: rest') x)
    (x : Nat) : readCells rest x = readCells rest' x := by
  by_cases hx : x = a
  · subst hx
    rw [readCells_below rest _ x.lt_succ_self hrest, readCells_below rest' _ x.lt_succ_self hrest']
  · rw [← readCells_cons_of_ne hx b, h, readCells_cons_of_ne hx]

/-- Reads determine the cells of a canonical memory: the first cell is at the least listed address, and the rest follows. -/
theorem eq_of_readCells_eq : ∀ (m m' : List Host.Cell) (lo lo' : Nat), cellsWfFrom lo m = true → cellsWfFrom lo' m' = true →
    (∀ x, readCells m x = readCells m' x) → m = m'
  | [], [], _, _, _, _, _ => rfl
  | [], (a, b) :: rest, _, _, _, hm', h => by
    obtain ⟨-, -, hb, -⟩ := cellsWfFrom_cons.mp hm'
    exact absurd ((h a).trans (readCells_cons_self a b rest)).symm hb
  | (a, b) :: rest, [], _, _, hm, _, h => by
    obtain ⟨-, -, hb, -⟩ := cellsWfFrom_cons.mp hm
    exact absurd ((readCells_cons_self a b rest).symm.trans (h a)) hb
  | (a, b) :: rest, (a', b') :: rest', _, _, hm, hm', h => by
    obtain ⟨-, -, hb, hrest⟩ := cellsWfFrom_cons.mp hm
    obtain ⟨-, -, hb', hrest'⟩ := cellsWfFrom_cons.mp hm'
    have hle : a' ≤ a := cons_address_le hm' (by rwa [← h, readCells_cons_self])
    have hge : a ≤ a' := cons_address_le hm (by rwa [h, readCells_cons_self])
    obtain rfl : a = a' := le_antisymm hge hle
    obtain rfl : b = b' := by simpa using h a
    rw [eq_of_readCells_eq rest rest' _ _ hrest hrest' (readCells_rest_congr hrest hrest' h)]

/-! ## Reading after a store -/

/-- Everything a store of bytes that end by 2^64 does to reads of a canonical memory: from `a` up an address reads as the byte stored
for it, if there is one, and every other address reads as before. -/
theorem storeBytes_byteAt (bs : List Byte) : ∀ (s : State) (a : Nat), Memory.wf s.mem = true → a + bs.length ≤ 2 ^ 64 →
    ∀ x, (s.storeBytes a bs).byteAt x = if a ≤ x then bs[x - a]?.getD (s.byteAt x) else s.byteAt x := by
  induction bs with
  | nil => intro s a _ _ x; simp [State.storeBytes]
  | cons b rest ih =>
    intro s a hwf hlen x
    rw [List.length_cons] at hlen
    have ha : a < 2 ^ 64 := by omega
    have hb : ({ s with mem := writeCells s.mem a b } : State).byteAt x = if x = a then b else s.byteAt x :=
      readCells_writeCells hwf a b x
    rw [State.storeBytes, if_pos ha, ih _ (a + 1) (writeCells_wf b ha hwf) (by omega), hb]
    rcases Nat.lt_trichotomy x a with hlt | rfl | hgt
    · rw [if_neg (by omega), if_neg hlt.ne, if_neg (by omega)]
    · simp
    · have hsub : x - a = x - (a + 1) + 1 := by omega
      rw [if_pos (Nat.succ_le_of_lt hgt), if_neg hgt.ne', if_pos hgt.le, hsub, List.getElem?_cons_succ]

/-! ## Memory and the frame -/

/-- The frame holds memory. -/
theorem SameElsewhere.mem_eq {s t : State} (h : SameElsewhere s t) : t.mem = s.mem := by
  obtain ⟨-, -, -, -, -, -, -, -, -, -, -, -, -, hmem, -⟩ := h
  exact hmem

end Sys2Proof.Machine
end

section
/-! PROOFS. 20_memory.md: the value of a memory operand, the operation that places a program, the canonical form, and memory over a
run. -/

namespace Sys2Proof

open Sys2Proof.Machine

/-- Settles O20: the value is the bytes packed as fields of 8 bits, and 64 of them fit in the container of 512 bits. -/
theorem memoryValueIsLittleEndian : Obligations.MemoryValueIsLittleEndian := by
  intro s a n i hn hi
  have hfits : 8 * n ≤ 512 := by omega
  exact pack_field (fun j => s.byteAt (a + j)) (by decide) hfits hi

/-- Settles O21: inside the stored bytes a read takes the byte at its offset; below them, or past their end, it finds none. -/
theorem storedBytesReadBack : Obligations.StoredBytesReadBack := by
  intro s a bs hwf hlen
  refine ⟨fun i hi => ?_, fun x hx => ?_⟩
  · simp [storeBytes_byteAt bs s a hwf hlen, hi]
  · rw [storeBytes_byteAt bs s a hwf hlen]
    rcases hx with hbelow | hpast
    · rw [if_neg (by omega)]
    · rw [if_pos (by omega), List.getElem?_eq_none (by omega), Option.getD_none]

/-- Settles O22: the first cell of each memory has the least address that reads as listed, so the two agree cell by cell. -/
theorem canonicalMemoriesAreEqualWhenTheyReadTheSame : Obligations.CanonicalMemoriesAreEqualWhenTheyReadTheSame :=
  fun m m' hm hm' h => eq_of_readCells_eq m m' 0 0 hm hm' h

/-- Settles O53: memory is in the frame of every run (O55). -/
theorem memoryIsConstantAcrossRuns : Obligations.MemoryIsConstantAcrossRuns :=
  fun n s t h => (runsChangeOnlyVectorAndMmxRegisters n s t h).mem_eq

end Sys2Proof
end

section
/-! PROOFS. 30_encoding.md, the facts about the decoder its statements share: which byte spells which fields, what each layer of it
reads from what the encoder writes, and what it must have read when it answers an instruction. -/

namespace Sys2Proof

/-! ## Bit fields -/

/-- A field is two fields side by side exactly when its high part is the one and its low part the other. -/
theorem extractLsb'_eq_append_iff {n v w : Nat} (b : BitVec n) (i : Nat) (x : BitVec v) (y : BitVec w) :
    b.extractLsb' i (v + w) = x ++ y ↔ b.extractLsb' (i + w) v = x ∧ b.extractLsb' i w = y := by
  rw [← BitVec.extractLsb'_append_extractLsb'_eq_extractLsb' (start₂ := i + w) (start₁ := i) rfl]
  constructor
  · intro h
    have hhigh := congrArg (BitVec.extractLsb' w v) h
    have hlow := congrArg (BitVec.extractLsb' 0 w) h
    exact ⟨by simpa only [BitVec.extractLsb'_append_eq_left] using hhigh,
      by simpa only [BitVec.extractLsb'_append_eq_right] using hlow⟩
  · rintro ⟨rfl, rfl⟩
    rfl

/-- A whole word is two fields side by side. -/
theorem eq_append_iff {v w : Nat} (b : BitVec (v + w)) (x : BitVec v) (y : BitVec w) :
    b = x ++ y ↔ b.extractLsb' w v = x ∧ b.extractLsb' 0 w = y := by
  simpa only [BitVec.extractLsb'_eq_self, Nat.zero_add] using extractLsb'_eq_append_iff b 0 x y

/-- A field of one bit. -/
theorem extractLsb'_eq_ofBool_iff {n : Nat} (b : BitVec n) (i : Nat) (x : Bool) :
    b.extractLsb' i 1 = BitVec.ofBool x ↔ b.getLsbD i = x := by
  simp [BitVec.eq_of_getLsbD_eq_iff]

/-- A field of one bit that is a numeral. -/
theorem extractLsb'_eq_one_iff {n : Nat} (b : BitVec n) (i : Nat) : b.extractLsb' i 1 = 1#1 ↔ b.getLsbD i = true :=
  extractLsb'_eq_ofBool_iff b i true

/-! ## Which byte spells which fields -/

/-- The fields of a ModRM byte (R74). -/
theorem eq_modrmByte_iff {b : Byte} {mod : BitVec 2} {reg rm : BitVec 3} :
    b = modrmByte mod reg rm ↔ b.extractLsb' 6 2 = mod ∧ b.extractLsb' 3 3 = reg ∧ b.extractLsb' 0 3 = rm := by
  refine (eq_append_iff (v := 2 + 3) (w := 3) b _ _).trans ?_
  rw [extractLsb'_eq_append_iff, and_assoc]

/-- The fields of a SIB byte (R73). -/
theorem eq_sibByte_iff {b : Byte} {scale : BitVec 2} {index base : BitVec 3} :
    b = sibByte scale index base ↔ b.extractLsb' 6 2 = scale ∧ b.extractLsb' 3 3 = index ∧ b.extractLsb' 0 3 = base :=
  eq_modrmByte_iff

/-- A byte is read as a REX prefix exactly when it is that prefix's byte (R76). -/
theorem rexOf_eq_some {b : Byte} {r : Rex} : rexOf b = some r ↔ b = r.byte := by
  obtain ⟨w, r, x, rb⟩ := r
  refine Iff.symm ((eq_append_iff (v := 4 + 1 + 1 + 1) (w := 1) b _ _).trans ?_)
  simp only [extractLsb'_eq_append_iff, extractLsb'_eq_ofBool_iff]
  simp [rexOf, and_assoc]

/-- The bytes of a 32-bit displacement, least significant first (R90). -/
theorem join32_eq_iff {b0 b1 b2 b3 : Byte} {d : BitVec 32} :
    join32 b0 b1 b2 b3 = d ↔
      b0 = d.extractLsb' 0 8 ∧ b1 = d.extractLsb' 8 8 ∧ b2 = d.extractLsb' 16 8 ∧ b3 = d.extractLsb' 24 8 := by
  refine eq_comm.trans ((eq_append_iff (v := 8 + 8 + 8) (w := 8) d _ _).trans ?_)
  simp only [extractLsb'_eq_append_iff]
  constructor
  · rintro ⟨⟨⟨rfl, rfl⟩, rfl⟩, rfl⟩
    exact ⟨rfl, rfl, rfl, rfl⟩
  · rintro ⟨rfl, rfl, rfl, rfl⟩
    exact ⟨⟨⟨rfl, rfl⟩, rfl⟩, rfl⟩

/-- The byte after C5 (R78). -/
theorem vexTwo_bytes_iff {p : Byte} {l r : Bool} {vvvv : BitVec 4} :
    [0xC5, p] = (Vex.two r vvvv).bytes l ↔
      (!p.getLsbD 7) = r ∧ ~~~(p.extractLsb' 3 4) = vvvv ∧ p.getLsbD 2 = l ∧ p.extractLsb' 0 2 = 1#2 := by
  have hp := eq_append_iff (v := 1 + 4 + 1) (w := 2) p (BitVec.ofBool (!r) ++ ~~~vvvv ++ BitVec.ofBool l) 1#2
  simp only [extractLsb'_eq_append_iff, extractLsb'_eq_ofBool_iff] at hp
  simp only [Vex.bytes, List.cons.injEq, and_true, true_and]
  refine hp.trans ?_
  simp [and_assoc, Bool.not_eq_eq_eq_not, BitVec.not_eq_comm]

/-- The two bytes after C4 (R78). -/
theorem vexThree_bytes_iff {p q : Byte} {l w r x b : Bool} {vvvv : BitVec 4} :
    [0xC4, p, q] = (Vex.three w r x b vvvv).bytes l ↔
      (q.getLsbD 7 = w ∧ (!p.getLsbD 7) = r ∧ (!p.getLsbD 6) = x ∧ (!p.getLsbD 5) = b ∧ ~~~(q.extractLsb' 3 4) = vvvv) ∧
        q.getLsbD 2 = l ∧ p.extractLsb' 0 5 = 1#5 ∧ q.extractLsb' 0 2 = 1#2 := by
  have hp := eq_append_iff (v := 1 + 1 + 1) (w := 5) p (BitVec.ofBool (!r) ++ BitVec.ofBool (!x) ++ BitVec.ofBool (!b)) 1#5
  have hq := eq_append_iff (v := 1 + 4 + 1) (w := 2) q (BitVec.ofBool w ++ ~~~vvvv ++ BitVec.ofBool l) 1#2
  simp only [extractLsb'_eq_append_iff, extractLsb'_eq_ofBool_iff] at hp hq
  simp only [Vex.bytes, List.cons.injEq, and_true, true_and]
  refine (and_congr hp hq).trans ?_
  simp only [Bool.not_eq_eq_eq_not, BitVec.not_eq_comm, Nat.reduceAdd]
  tauto

/-- P0, P1, P2 and the opcode after 62 (R80, R93 step 1). -/
theorem evex_bytes_iff {p0 p1 p2 op : Byte} {ll : BitVec 2} {e : Evex} :
    [0x62, p0, p1, p2, op] = e.bytes ll ++ [0xF4] ↔
      evexFieldsOk p0 p1 op = true ∧ evexOf p0 p1 p2 = e ∧ p2.extractLsb' 5 2 = ll := by
  obtain ⟨r, x, b, r', vvvv, v', z, bcst, aaa⟩ := e
  have h0 := eq_append_iff (v := 1 + 1 + 1 + 1) (w := 4) p0
    (BitVec.ofBool (!r) ++ BitVec.ofBool (!x) ++ BitVec.ofBool (!b) ++ BitVec.ofBool (!r')) 1#4
  have h1 := eq_append_iff (v := 1 + 4) (w := 3) p1 (1#1 ++ ~~~vvvv) 5#3
  have h2 := eq_append_iff (v := 1 + 2 + 1 + 1) (w := 3) p2
    (BitVec.ofBool z ++ ll ++ BitVec.ofBool bcst ++ BitVec.ofBool (!v')) aaa
  simp only [extractLsb'_eq_append_iff, extractLsb'_eq_ofBool_iff, extractLsb'_eq_one_iff] at h0 h1 h2
  simp only [Evex.bytes, List.cons_append, List.nil_append, List.cons.injEq, and_true, true_and]
  refine (and_congr h0 (and_congr h1 (and_congr h2 Iff.rfl))).trans ?_
  simp only [evexFieldsOk, evexOf, Evex.mk.injEq, Bool.not_eq_eq_eq_not, BitVec.not_eq_comm, Nat.reduceAdd, Bool.and_eq_true,
    beq_iff_eq]
  tauto

/-! ## Prefix bytes -/

/-- The high half of a REX byte is 4. -/
theorem Rex.byte_high (r : Rex) : r.byte.extractLsb' 4 4 = 4#4 := by
  by_contra h
  simpa [rexOf, h] using rexOf_eq_some.mpr (rfl : r.byte = r.byte)

/-- A REX byte is a prefix byte. -/
theorem Rex.isPrefixByte (r : Rex) : isPrefixByte r.byte = true := by simp [Sys2Proof.isPrefixByte, r.byte_high]

/-- A REX byte differs from every byte whose high half is not 4. -/
theorem Rex.byte_ne (r : Rex) {b : Byte} (h : b.extractLsb' 4 4 ≠ 4#4) : r.byte ≠ b := by
  rintro rfl
  exact h r.byte_high

/-- The bytes of an optional REX prefix are prefix bytes. -/
theorem rexBytes_isPrefixByte (rex : Option Rex) : ∀ p ∈ rexBytes rex, isPrefixByte p = true := by
  cases rex with
  | none => exact nofun
  | some r => simpa [rexBytes] using r.isPrefixByte

/-- A byte that is no REX byte is not in an optional REX prefix. -/
theorem not_mem_rexBytes {b : Byte} (h : b.extractLsb' 4 4 ≠ 4#4) (rex : Option Rex) : b ∉ rexBytes rex := by
  cases rex with
  | none => exact List.not_mem_nil
  | some r => simpa [rexBytes] using (r.byte_ne h).symm

/-- An optional REX prefix has no F2, F3 or F0. -/
theorem rexBytes_ne (rex : Option Rex) : ∀ p ∈ rexBytes rex, p ≠ 0xF2 ∧ p ≠ 0xF3 ∧ p ≠ 0xF0 := by
  refine fun p hp => ⟨?_, ?_, ?_⟩ <;> rintro rfl <;> exact not_mem_rexBytes (by decide) rex hp

/-- Bytes that begin with one that is no REX byte are no optional REX prefix. -/
theorem cons_ne_rexBytes {b : Byte} (h : b.extractLsb' 4 4 ≠ 4#4) (bs : List Byte) (rex : Option Rex) :
    b :: bs ≠ rexBytes rex := fun heq => not_mem_rexBytes h rex (heq ▸ List.mem_cons_self)

/-- The prefix bytes that do not make a VEX encoding #UD: none of 66, F2, F3, F0 and REX. -/
theorem forbiddenBeforeVex_eq_false {p : Byte} :
    forbiddenBeforeVex p = false ↔ p ≠ 0x66 ∧ p ≠ 0xF2 ∧ p ≠ 0xF3 ∧ p ≠ 0xF0 ∧ p.extractLsb' 4 4 ≠ 4#4 := by
  simp [forbiddenBeforeVex, and_assoc]

/-- Prefix bytes before a byte that is none are set apart from it. -/
theorem decode_append {ps : List Byte} {b : Byte} (hps : ∀ p ∈ ps, isPrefixByte p = true) (hb : isPrefixByte b = false)
    (rest : List Byte) : decode (ps ++ b :: rest) = decodeOpcode ps (b :: rest) := by
  simp [decode, List.takeWhile_append_of_pos hps, List.dropWhile_append_of_pos hps, hb]

/-! ## Displacement, SIB and ModRM -/

/-- A 32-bit displacement is read exactly from its four bytes. -/
theorem takeDisp32_eq_some {bs rest : List Byte} {d : BitVec 32} :
    takeDisp32 bs = some (d, rest) ↔ bs = disp32Bytes d ++ rest := by
  unfold takeDisp32
  split
  · simp [disp32Bytes, join32_eq_iff, and_assoc]
  · next hshort => exact ⟨nofun, fun h => (hshort _ _ _ _ _ h).elim⟩

/-- A `mod` that announces memory is 0, 1 or 2. -/
theorem mod_cases : ∀ {mod : BitVec 2}, mod ≠ 3#2 → mod = 0#2 ∨ mod = 1#2 ∨ mod = 2#2 := by decide

/-- The displacement that `mod` announces is read exactly from its bytes. -/
theorem takeDisp_eq_some {mod : BitVec 2} (hmod : mod ≠ 3#2) {bs rest : List Byte} {disp : Disp} :
    takeDisp mod bs = some (disp, rest) ↔ disp.mod = mod ∧ bs = disp.bytes ++ rest := by
  obtain rfl | rfl | rfl := mod_cases hmod
  · cases disp <;> simp [takeDisp, Disp.mod, Disp.bytes]
  · cases bs <;> cases disp <;> simp [takeDisp, Disp.mod, Disp.bytes]
  · cases disp <;> simp [takeDisp, Disp.mod, Disp.bytes, takeDisp32_eq_some]

/-- A displacement's `mod` announces memory. -/
theorem Disp.mod_ne (disp : Disp) : disp.mod ≠ 3#2 := by cases disp <;> simp [Disp.mod]

/-- `mod = 0` announces no displacement. -/
theorem Disp.mod_eq_zero {disp : Disp} : disp.mod = 0#2 ↔ disp = .none := by cases disp <;> simp [Disp.mod]

/-- The `mod` field of a memory operand's ModRM byte. -/
def MemOperand.mod : MemOperand → BitVec 2
  | .base _ disp => disp.mod
  | .ripRel _ => 0#2
  | .sib _ _ _ disp => disp.mod
  | .sibNoBase _ _ _ => 0#2

/-- The `rm` field of a memory operand's ModRM byte. -/
def MemOperand.rmField : MemOperand → BitVec 3
  | .base rm _ => rm
  | .ripRel _ => 5#3
  | .sib _ _ _ _ => 4#3
  | .sibNoBase _ _ _ => 4#3

/-- The bytes of a memory operand after its ModRM byte. -/
def MemOperand.tail : MemOperand → List Byte
  | .base _ disp => disp.bytes
  | .ripRel disp => disp32Bytes disp
  | .sib scale index baseReg disp => sibByte scale index baseReg :: disp.bytes
  | .sibNoBase scale index disp => sibByte scale index 5#3 :: disp32Bytes disp

/-- The encoder writes a memory operand as these fields and bytes. -/
theorem encodeRm_mem (reg : BitVec 3) (m : MemOperand) :
    encodeRm reg (.mem m) = modrmByte m.mod reg m.rmField :: m.tail := by cases m <;> rfl

/-- A memory operand's `mod` announces memory. -/
theorem MemOperand.mod_ne (m : MemOperand) : m.mod ≠ 3#2 := by
  cases m with
  | base _ disp => exact disp.mod_ne
  | ripRel => simp [mod]
  | sib _ _ _ disp => exact disp.mod_ne
  | sibNoBase => simp [mod]

/-- A plain base is well formed where neither of the two other shapes takes its `rm`. -/
theorem MemOperand.wellFormed_base {rm : BitVec 3} {disp : Disp} :
    (MemOperand.base rm disp).wellFormed = true ↔ rm ≠ 4#3 ∧ ¬(disp.mod = 0#2 ∧ rm = 5#3) := by
  simp [wellFormed, Disp.mod_eq_zero, imp_iff_not_or]

/-- A SIB base is well formed where the operand without base does not take its number. -/
theorem MemOperand.wellFormed_sib {scale : BitVec 2} {index baseReg : BitVec 3} {disp : Disp} :
    (MemOperand.sib scale index baseReg disp).wellFormed = true ↔ ¬(disp.mod = 0#2 ∧ baseReg = 5#3) := by
  simp [wellFormed, Disp.mod_eq_zero, imp_iff_not_or]

/-- A SIB byte and what follows are read exactly from a well-formed operand with a SIB byte (R86 case (c)). -/
theorem takeSib_eq_some {mod : BitVec 2} (hmod : mod ≠ 3#2) {b : Byte} {bs rest : List Byte} {m : MemOperand} :
    takeSib mod b bs = some (m, rest) ↔
      m.wellFormed = true ∧ m.mod = mod ∧ m.rmField = 4#3 ∧ b :: bs = m.tail ++ rest := by
  simp only [takeSib]
  cases m with
  | base rm disp => split <;> simp +contextual [MemOperand.wellFormed_base, MemOperand.rmField]
  | ripRel disp => split <;> simp [MemOperand.rmField]
  | sib scale index baseReg disp =>
    simp only [MemOperand.wellFormed_sib, MemOperand.mod, MemOperand.rmField, MemOperand.tail, List.cons_append,
      List.cons.injEq, eq_sibByte_iff]
    split
    · -- these fields are those of the operand without base, which a well-formed base avoids
      simp
      grind
    · simp [takeDisp_eq_some hmod]
      grind
  | sibNoBase scale index disp =>
    simp only [MemOperand.wellFormed, MemOperand.mod, MemOperand.rmField, MemOperand.tail, List.cons_append, List.cons.injEq,
      eq_sibByte_iff]
    split
    · simp [takeDisp32_eq_some]
      grind
    · simp
      grind

/-- What follows ModRM is read exactly from a well-formed memory operand with the same `mod` and `rm` (R86). -/
theorem takeMem_eq_some {mod : BitVec 2} (hmod : mod ≠ 3#2) {rm : BitVec 3} {bs rest : List Byte} {m : MemOperand} :
    takeMem mod rm bs = some (m, rest) ↔
      m.wellFormed = true ∧ m.mod = mod ∧ m.rmField = rm ∧ bs = m.tail ++ rest := by
  unfold takeMem
  split
  · next hsib =>
    subst hsib
    cases bs with
    | cons b bs => exact takeSib_eq_some hmod
    | nil => cases m <;> simp +contextual [MemOperand.wellFormed_base, MemOperand.mod, MemOperand.rmField, MemOperand.tail]
  · next hsib =>
    cases m with
    | base r disp =>
      simp only [MemOperand.wellFormed_base, MemOperand.mod, MemOperand.rmField, MemOperand.tail]
      split
      · -- these fields are those of the RIP-relative operand, which a well-formed base avoids
        simp
        grind
      · simp [takeDisp_eq_some hmod]
        grind
    | ripRel disp =>
      simp only [MemOperand.wellFormed, MemOperand.mod, MemOperand.rmField, MemOperand.tail]
      split
      · simp [takeDisp32_eq_some]
        grind
      · simp
        grind
    | sib scale index baseReg disp => split <;> simp [MemOperand.rmField, Ne.symm hsib]
    | sibNoBase scale index disp => split <;> simp [MemOperand.rmField, Ne.symm hsib]

/-- ModRM, SIB and displacement are read exactly from what the encoder writes for a well-formed operand. -/
theorem takeRm_eq_some {bs rest : List Byte} {reg : BitVec 3} {rm : Rm} :
    takeRm bs = some (reg, rm, rest) ↔ rm.wellFormed = true ∧ bs = encodeRm reg rm ++ rest := by
  cases bs with
  | nil =>
    cases rm with
    | reg n => simp [takeRm, encodeRm]
    | mem m => simp [takeRm, encodeRm_mem]
  | cons b bs =>
    simp only [takeRm]
    cases rm with
    | reg n =>
      simp only [encodeRm, Rm.wellFormed, List.cons_append, List.cons.injEq, eq_modrmByte_iff]
      split
      · simp
        grind
      · simp
        grind
    | mem m =>
      have hmod := m.mod_ne
      simp only [encodeRm_mem, Rm.wellFormed, List.cons_append, List.cons.injEq, eq_modrmByte_iff]
      split
      · simp
        grind
      · next hmem =>
        simp [takeMem_eq_some hmem]
        grind

/-- Reading an operand the encoder wrote goes on with it. -/
theorem withRm_encodeRm {reg : BitVec 3} {rm : Rm} (h : rm.wellFormed = true) (rest : List Byte)
    (mk : BitVec 3 → Rm → List Byte → DecodeResult) : withRm (encodeRm reg rm ++ rest) mk = mk reg rm rest := by
  simp [withRm, takeRm_eq_some.mpr ⟨h, rfl⟩]

/-- An instruction read with an operand was made from an operand the encoder writes so. -/
theorem withRm_instr {bs rest : List Byte} {mk : BitVec 3 → Rm → List Byte → DecodeResult} {i : Instr}
    (h : withRm bs mk = .instr i rest) :
    ∃ reg rm rest', rm.wellFormed = true ∧ bs = encodeRm reg rm ++ rest' ∧ mk reg rm rest' = .instr i rest := by
  unfold withRm at h
  split at h
  · next hrm =>
    obtain ⟨hwf, hbs⟩ := takeRm_eq_some.mp hrm
    exact ⟨_, _, _, hwf, hbs, h⟩
  · exact nomatch h

/-! ## The escape bytes (R93) -/

theorem decodeOpcode_62 (ps bs : List Byte) : decodeOpcode ps (0x62 :: bs) = afterPrefixes ps (decodeEvex bs) := rfl
theorem decodeOpcode_c4 (ps bs : List Byte) : decodeOpcode ps (0xC4 :: bs) = afterPrefixes ps (decodeVex3 bs) := rfl
theorem decodeOpcode_c5 (ps bs : List Byte) : decodeOpcode ps (0xC5 :: bs) = afterPrefixes ps (decodeVex2 bs) := rfl
theorem decodeOpcode_0f (ps bs : List Byte) : decodeOpcode ps (0x0F :: bs) = decodeLegacy ps bs := rfl

/-! ## The legacy encodings -/

/-- The prefix bytes of a legacy form, and only they, spell it (R73, R93). -/
theorem legacyForm_eq_instr {ps : List Byte} {reg : BitVec 3} {rm : Rm} {rest rest' : List Byte} {i : Instr} :
    legacyForm ps reg rm rest = .instr i rest' ↔ rest = rest' ∧
      ∃ rex, (i = .pmuludqMm rex reg rm ∧ ps = rexBytes rex) ∨ (i = .pmuludqXmm rex reg rm ∧ ps = 0x66 :: rexBytes rex) := by
  constructor
  · intro h
    unfold legacyForm at h
    split at h
    · exact nomatch h
    split at h
    · exact nomatch h
    split at h
    · cases h
      exact ⟨rfl, none, .inl ⟨rfl, rfl⟩⟩
    · split at h
      · next h66 =>
        cases h
        exact ⟨rfl, none, .inr ⟨rfl, by rw [h66]; rfl⟩⟩
      split at h
      · next rex hrex =>
        cases h
        exact ⟨rfl, some rex, .inl ⟨rfl, by rw [rexOf_eq_some.mp hrex]; rfl⟩⟩
      · exact nomatch h
    · split at h
      · next h66 =>
        split at h
        · next rex hrex =>
          cases h
          exact ⟨rfl, some rex, .inr ⟨rfl, by rw [h66, rexOf_eq_some.mp hrex]; rfl⟩⟩
        · exact nomatch h
      · exact nomatch h
    · exact nomatch h
  · rintro ⟨rfl, rex, ⟨rfl, rfl⟩ | ⟨rfl, rfl⟩⟩
    · cases rex with
      | none => rfl
      | some r => simp [legacyForm, rexBytes, (r.byte_ne _).symm, r.byte_ne, rexOf_eq_some.mpr rfl]
    · cases rex with
      | none => rfl
      | some r => simp [legacyForm, rexBytes, (r.byte_ne _).symm, rexOf_eq_some.mpr rfl]

/-- F2 or F3 among the prefix bytes spells no form (R75). -/
theorem legacyForm_repeatPrefix {ps : List Byte} (h : 0xF2 ∈ ps ∨ 0xF3 ∈ ps) (reg : BitVec 3) (rm : Rm) (rest : List Byte) :
    legacyForm ps reg rm rest = .refused .repeatPrefix := if_pos (by simpa using h)

/-- Prefix bytes without F2, F3 and F0 that no legacy form has are refused (R77). -/
theorem legacyForm_prefixNotAdmitted {ps : List Byte} (hps : ∀ p ∈ ps, p ≠ 0xF2 ∧ p ≠ 0xF3 ∧ p ≠ 0xF0)
    (hmm : ∀ rex, ps ≠ rexBytes rex) (hxmm : ∀ rex, ps ≠ 0x66 :: rexBytes rex) (reg : BitVec 3) (rm : Rm) (rest : List Byte) :
    legacyForm ps reg rm rest = .refused .prefixNotAdmitted := by
  unfold legacyForm
  have hF2 : 0xF2 ∉ ps := fun h => (hps _ h).1 rfl
  have hF3 : 0xF3 ∉ ps := fun h => (hps _ h).2.1 rfl
  have hF0 : 0xF0 ∉ ps := fun h => (hps _ h).2.2 rfl
  rw [if_neg (by simpa using ⟨hF2, hF3⟩), if_neg (by simpa using hF0)]
  split
  · exact absurd rfl (hmm none)
  · split
    · next h66 => exact absurd (by rw [h66]; rfl) (hxmm none)
    split
    · next rex hrex => exact absurd (by rw [rexOf_eq_some.mp hrex]; rfl) (hmm (some rex))
    · rfl
  · split
    · next h66 =>
      split
      · next rex hrex => exact absurd (by rw [h66, rexOf_eq_some.mp hrex]; rfl) (hxmm (some rex))
      · rfl
    · rfl
  · rfl

/-- After `0F F4` and an operand, the prefix bytes decide. -/
theorem decodeOpcode_legacy (ps : List Byte) {reg : BitVec 3} {rm : Rm} (h : rm.wellFormed = true) (rest : List Byte) :
    decodeOpcode ps (0x0F :: 0xF4 :: (encodeRm reg rm ++ rest)) = legacyForm ps reg rm rest :=
  (decodeOpcode_0f ps _).trans (withRm_encodeRm h rest (legacyForm ps))

/-- What the legacy decoder reads is the encoding of a well-formed instruction. -/
theorem decodeLegacy_instr {ps bs rest : List Byte} {i : Instr} (h : decodeLegacy ps bs = .instr i rest) :
    i.WellFormed = true ∧ encode i ++ rest = ps ++ 0x0F :: bs := by
  unfold decodeLegacy at h
  split at h
  · exact nomatch h
  split at h
  · next hop =>
    obtain ⟨reg, rm, _, hwf, rfl, hform⟩ := withRm_instr h
    obtain ⟨rfl, rex, ⟨rfl, rfl⟩ | ⟨rfl, rfl⟩⟩ := legacyForm_eq_instr.mp hform
    · exact ⟨hwf, by simp [encode, hop]⟩
    · exact ⟨hwf, by simp [encode, hop]⟩
  · exact nomatch h

/-! ## The VEX encodings -/

/-- VEX.L chooses the form, and the encoder writes it back. -/
theorem encode_vexInstr (l : Bool) (vex : Vex) (reg : BitVec 3) (rm : Rm) :
    encode (vexInstr l vex reg rm) = vex.bytes l ++ 0xF4 :: encodeRm reg rm := by
  cases l <;> simp [vexInstr, encode]

/-- VEX.L chooses between two forms of the same operand. -/
theorem vexInstr_wellFormed (l : Bool) (vex : Vex) (reg : BitVec 3) (rm : Rm) :
    (vexInstr l vex reg rm).WellFormed = rm.wellFormed := by cases l <;> rfl

/-- What follows a VEX prefix with the admitted fields. -/
theorem decodeVexTail_encodeRm (vex : Vex) (l : Bool) {reg : BitVec 3} {rm : Rm} (h : rm.wellFormed = true) (rest : List Byte) :
    decodeVexTail vex l true 0xF4 (encodeRm reg rm ++ rest) = .instr (vexInstr l vex reg rm) rest :=
  withRm_encodeRm h rest _

/-- What must follow a VEX prefix for an instruction to be read. -/
theorem decodeVexTail_instr {vex : Vex} {l ok : Bool} {op : Byte} {bs rest : List Byte} {i : Instr}
    (h : decodeVexTail vex l ok op bs = .instr i rest) :
    ok = true ∧ i.WellFormed = true ∧ encode i ++ rest = vex.bytes l ++ op :: bs := by
  unfold decodeVexTail at h
  split at h
  · next hok =>
    obtain ⟨hok, hop⟩ := Bool.and_eq_true_iff.mp hok
    obtain ⟨reg, rm, _, hwf, rfl, hi⟩ := withRm_instr h
    cases hi
    exact ⟨hok, vexInstr_wellFormed l vex reg rm ▸ hwf, by simp [encode_vexInstr, beq_iff_eq.mp hop]⟩
  · exact nomatch h

/-- What is read after C5 is an encoding that begins with C5. -/
theorem decodeVex2_instr {bs rest : List Byte} {i : Instr} (h : decodeVex2 bs = .instr i rest) :
    i.WellFormed = true ∧ encode i ++ rest = 0xC5 :: bs := by
  unfold decodeVex2 at h
  split at h
  · next p op bs =>
    obtain ⟨hpp, hwf, henc⟩ := decodeVexTail_instr h
    rw [← vexTwo_bytes_iff.mpr ⟨rfl, rfl, rfl, beq_iff_eq.mp hpp⟩] at henc
    exact ⟨hwf, henc⟩
  · exact nomatch h

/-- What is read after C4 is an encoding that begins with C4. -/
theorem decodeVex3_instr {bs rest : List Byte} {i : Instr} (h : decodeVex3 bs = .instr i rest) :
    i.WellFormed = true ∧ encode i ++ rest = 0xC4 :: bs := by
  unfold decodeVex3 at h
  split at h
  · next p q op bs =>
    obtain ⟨hfields, hwf, henc⟩ := decodeVexTail_instr h
    obtain ⟨hmap, hpp⟩ := Bool.and_eq_true_iff.mp hfields
    rw [← vexThree_bytes_iff.mpr ⟨⟨rfl, rfl, rfl, rfl, rfl⟩, rfl, beq_iff_eq.mp hmap, beq_iff_eq.mp hpp⟩] at henc
    exact ⟨hwf, henc⟩
  · exact nomatch h

/-- A VEX encoding after prefix bytes. -/
theorem decodeOpcode_vex (ps : List Byte) (l : Bool) (vex : Vex) {reg : BitVec 3} {rm : Rm} (h : rm.wellFormed = true)
    (rest : List Byte) : decodeOpcode ps (vex.bytes l ++ 0xF4 :: (encodeRm reg rm ++ rest)) =
      afterPrefixes ps (.instr (vexInstr l vex reg rm) rest) := by
  cases vex with
  | two r vvvv =>
    obtain ⟨p, hbytes⟩ : ∃ p, [0xC5, p] = (Vex.two r vvvv).bytes l := ⟨_, rfl⟩
    obtain ⟨hr, hv, hl, hpp⟩ := vexTwo_bytes_iff.mp hbytes
    rw [← hbytes]
    simp only [List.cons_append, List.nil_append, decodeOpcode_c5, decodeVex2, hr, hv, hl, hpp, beq_self_eq_true,
      decodeVexTail_encodeRm _ _ h]
  | three w r x b vvvv =>
    obtain ⟨p, q, hbytes⟩ : ∃ p q, [0xC4, p, q] = (Vex.three w r x b vvvv).bytes l := ⟨_, _, rfl⟩
    obtain ⟨⟨hw, hr, hx, hb, hv⟩, hl, hmap, hpp⟩ := vexThree_bytes_iff.mp hbytes
    rw [← hbytes]
    simp only [List.cons_append, List.nil_append, decodeOpcode_c4, decodeVex3, hw, hr, hx, hb, hv, hl, hmap, hpp,
      beq_self_eq_true, Bool.and_self, decodeVexTail_encodeRm _ _ h]

/-! ## The EVEX encodings -/

/-- An EVEX encoding after prefix bytes, its form still to be chosen by `ll`. -/
theorem decodeOpcode_evex (ps : List Byte) (ll : BitVec 2) (e : Evex) {reg : BitVec 3} {rm : Rm} (h : rm.wellFormed = true)
    (rest : List Byte) : decodeOpcode ps (e.bytes ll ++ 0xF4 :: (encodeRm reg rm ++ rest)) =
      afterPrefixes ps (evexForm ll e reg rm rest) := by
  obtain ⟨p0, p1, p2, hbytes⟩ : ∃ p0 p1 p2, [0x62, p0, p1, p2, 0xF4] = e.bytes ll ++ [0xF4] := ⟨_, _, _, rfl⟩
  obtain ⟨hok, he, hll⟩ := evex_bytes_iff.mp hbytes
  rw [List.append_cons, ← hbytes]
  simp only [List.cons_append, List.nil_append, decodeOpcode_62, decodeEvex, hok, he, hll, if_true, withRm_encodeRm h]

/-- The form EVEX.L'L chooses is written back with it. -/
theorem evexForm_instr {ll : BitVec 2} {e : Evex} {reg : BitVec 3} {rm : Rm} {rest rest' : List Byte} {i : Instr}
    (h : evexForm ll e reg rm rest = .instr i rest') :
    rest = rest' ∧ i.WellFormed = rm.wellFormed ∧ encode i = e.bytes ll ++ 0xF4 :: encodeRm reg rm := by
  unfold evexForm at h
  split at h
  · next hll => cases h; exact ⟨rfl, rfl, by simp [encode, hll]⟩
  split at h
  · next hll => cases h; exact ⟨rfl, rfl, by simp [encode, hll]⟩
  split at h
  · next hll => cases h; exact ⟨rfl, rfl, by simp [encode, hll]⟩
  · exact nomatch h

/-- What is read after 62 is an encoding that begins with 62. -/
theorem decodeEvex_instr {bs rest : List Byte} {i : Instr} (h : decodeEvex bs = .instr i rest) :
    i.WellFormed = true ∧ encode i ++ rest = 0x62 :: bs := by
  unfold decodeEvex at h
  split at h
  · next p0 p1 p2 op bs =>
    split at h
    · next hok =>
      obtain ⟨reg, rm, _, hwf, rfl, hform⟩ := withRm_instr h
      obtain ⟨rfl, hwf', henc⟩ := evexForm_instr hform
      have hbytes := evex_bytes_iff (p2 := p2).mpr ⟨hok, rfl, rfl⟩
      refine ⟨hwf'.trans hwf, ?_⟩
      simp only [evexFieldsOk, Bool.and_eq_true, beq_iff_eq] at hok
      obtain ⟨-, rfl⟩ := hok
      rw [henc, List.append_cons, ← hbytes]
      rfl
    · exact nomatch h
  · exact nomatch h

/-! ## The whole decoder -/

/-- After prefix bytes a VEX or EVEX encoding spells no instruction. -/
theorem afterPrefixes_instr {ps rest : List Byte} {r : DecodeResult} {i : Instr} (h : afterPrefixes ps r = .instr i rest) :
    ps = [] ∧ r = .instr i rest := by
  unfold afterPrefixes at h
  split at h
  · next hps => exact ⟨List.isEmpty_iff.mp hps, h⟩
  · split at h
    · split at h <;> exact nomatch h
    · split at h <;> exact nomatch h
    · exact nomatch h
    · exact nomatch h

/-- What is read after the prefix bytes is, with them, the encoding of a well-formed instruction. -/
theorem decodeOpcode_instr {ps bs rest : List Byte} {i : Instr} (h : decodeOpcode ps bs = .instr i rest) :
    i.WellFormed = true ∧ encode i ++ rest = ps ++ bs := by
  unfold decodeOpcode at h
  split at h
  · exact nomatch h
  split at h
  · next hb =>
    obtain ⟨rfl, h⟩ := afterPrefixes_instr h
    exact hb ▸ decodeEvex_instr h
  split at h
  · next hb =>
    obtain ⟨rfl, h⟩ := afterPrefixes_instr h
    exact hb ▸ decodeVex3_instr h
  split at h
  · next hb =>
    obtain ⟨rfl, h⟩ := afterPrefixes_instr h
    exact hb ▸ decodeVex2_instr h
  split at h
  · next hb => exact hb ▸ decodeLegacy_instr h
  · exact nomatch h

/-- A VEX encoding after prefix bytes, in full. -/
theorem decode_vex {ps : List Byte} (hps : ∀ p ∈ ps, isPrefixByte p = true) (l : Bool) (vex : Vex) {reg : BitVec 3} {rm : Rm}
    (h : rm.wellFormed = true) (rest : List Byte) :
    decode (ps ++ (encode (vexInstr l vex reg rm) ++ rest)) = afterPrefixes ps (.instr (vexInstr l vex reg rm) rest) := by
  rw [← decodeOpcode_vex ps l vex h rest, encode_vexInstr, List.append_assoc, List.cons_append]
  cases vex with
  | two => exact decode_append hps rfl _
  | three => exact decode_append hps rfl _

/-- An EVEX encoding after prefix bytes, its form still to be chosen by `ll`. -/
theorem decode_evex {ps : List Byte} (hps : ∀ p ∈ ps, isPrefixByte p = true) (ll : BitVec 2) (e : Evex) {reg : BitVec 3}
    {rm : Rm} (h : rm.wellFormed = true) (rest : List Byte) :
    decode (ps ++ (e.bytes ll ++ 0xF4 :: (encodeRm reg rm ++ rest))) = afterPrefixes ps (evexForm ll e reg rm rest) := by
  rw [← decodeOpcode_evex ps ll e h rest]
  exact decode_append hps rfl _

/-- A legacy encoding: all bytes before `0F F4` decide. -/
theorem decode_legacy {ps : List Byte} (hps : ∀ p ∈ ps, isPrefixByte p = true) {reg : BitVec 3} {rm : Rm}
    (h : rm.wellFormed = true) (rest : List Byte) :
    decode (ps ++ 0x0F :: 0xF4 :: (encodeRm reg rm ++ rest)) = legacyForm ps reg rm rest := by
  rw [← decodeOpcode_legacy ps h rest]
  exact decode_append hps rfl _

/-- Form 1 after prefix bytes: they and its own REX decide. -/
theorem decode_pmuludqMm {ps : List Byte} (hps : ∀ p ∈ ps, isPrefixByte p = true) (rex : Option Rex) {reg : BitVec 3} {rm : Rm}
    (h : rm.wellFormed = true) (rest : List Byte) :
    decode (ps ++ (encode (.pmuludqMm rex reg rm) ++ rest)) = legacyForm (ps ++ rexBytes rex) reg rm rest := by
  rw [← decode_legacy (List.forall_mem_append.mpr ⟨hps, rexBytes_isPrefixByte rex⟩) h]
  simp [encode]

/-- Form 2 after prefix bytes: they, its 66 and its own REX decide. -/
theorem decode_pmuludqXmm {ps : List Byte} (hps : ∀ p ∈ ps, isPrefixByte p = true) (rex : Option Rex) {reg : BitVec 3} {rm : Rm}
    (h : rm.wellFormed = true) (rest : List Byte) :
    decode (ps ++ (encode (.pmuludqXmm rex reg rm) ++ rest)) = legacyForm (ps ++ 0x66 :: rexBytes rex) reg rm rest := by
  rw [← decode_legacy (List.forall_mem_append.mpr
    ⟨hps, List.forall_mem_cons.mpr ⟨by decide, rexBytes_isPrefixByte rex⟩⟩) h]
  simp [encode]

/-- Forms 3 to 7 after prefix bytes. -/
theorem decode_vexOrEvex {ps : List Byte} (hps : ∀ p ∈ ps, isPrefixByte p = true) {i : Instr} (hi : i.form.isVexOrEvex = true)
    (h : i.WellFormed = true) (rest : List Byte) : decode (ps ++ (encode i ++ rest)) = afterPrefixes ps (.instr i rest) := by
  cases i with
  | pmuludqMm => exact nomatch hi
  | pmuludqXmm => exact nomatch hi
  | vpmuludqVexXmm vex reg rm => exact decode_vex hps false vex h rest
  | vpmuludqVexYmm vex reg rm => exact decode_vex hps true vex h rest
  | vpmuludqEvexXmm e reg rm => simpa [encode, evexForm] using decode_evex (rm := rm) hps 0#2 e h rest
  | vpmuludqEvexYmm e reg rm => simpa [encode, evexForm] using decode_evex (rm := rm) hps 1#2 e h rest
  | vpmuludqEvexZmm e reg rm => simpa [encode, evexForm] using decode_evex (rm := rm) hps 2#2 e h rest

/-- The decoder reads exactly what the encoder writes for well-formed instructions. -/
theorem decode_eq_instr {bs rest : List Byte} {i : Instr} :
    decode bs = .instr i rest ↔ i.WellFormed = true ∧ encode i ++ rest = bs := by
  constructor
  · intro h
    rw [← List.takeWhile_append_dropWhile (p := isPrefixByte) (l := bs)]
    exact decodeOpcode_instr h
  · rintro ⟨hwf, rfl⟩
    cases i with
    | pmuludqMm rex reg rm =>
      exact (decode_pmuludqMm (ps := []) nofun rex hwf rest).trans
        (legacyForm_eq_instr.mpr ⟨rfl, rex, .inl ⟨rfl, rfl⟩⟩)
    | pmuludqXmm rex reg rm =>
      exact (decode_pmuludqXmm (ps := []) nofun rex hwf rest).trans
        (legacyForm_eq_instr.mpr ⟨rfl, rex, .inr ⟨rfl, rfl⟩⟩)
    | _ => exact decode_vexOrEvex (ps := []) nofun rfl hwf rest

/-- A segment override or 67 before an instruction is refused (R77): those are the prefix bytes not forbidden before VEX. -/
theorem decode_prefixNotAdmitted {p : Byte} (hprefix : isPrefixByte p = true) (hp : forbiddenBeforeVex p = false) {i : Instr}
    (h : i.WellFormed = true) (rest : List Byte) : decode (p :: (encode i ++ rest)) = .refused .prefixNotAdmitted := by
  have hps : ∀ q ∈ [p], isPrefixByte q = true := List.forall_mem_singleton.mpr hprefix
  obtain ⟨h66, hF2, hF3, hF0, hrex⟩ := forbiddenBeforeVex_eq_false.mp hp
  cases i with
  | pmuludqMm rex reg rm =>
    exact (decode_pmuludqMm hps rex h rest).trans
      (legacyForm_prefixNotAdmitted (List.forall_mem_cons.mpr ⟨⟨hF2, hF3, hF0⟩, rexBytes_ne rex⟩)
        (cons_ne_rexBytes hrex _) (fun _ heq => h66 (List.cons.inj heq).1) reg rm rest)
  | pmuludqXmm rex reg rm =>
    exact (decode_pmuludqXmm hps rex h rest).trans
      (legacyForm_prefixNotAdmitted
        (List.forall_mem_cons.mpr ⟨⟨hF2, hF3, hF0⟩, List.forall_mem_cons.mpr ⟨by decide, rexBytes_ne rex⟩⟩)
        (cons_ne_rexBytes hrex _) (fun _ heq => h66 (List.cons.inj heq).1) reg rm rest)
  | _ => exact (decode_vexOrEvex hps rfl h rest).trans (by simp [afterPrefixes, hp])

end Sys2Proof
end

section
/-! PROOFS. 30_encoding.md, the facts about addresses its statements share: register numbers from fields, displacements as integers, the
effective address as a sum, and the read of each instruction's memory operand. -/

namespace Sys2Proof.Machine

open Sys2Proof.Statements

/-! ## Fields side by side as numbers -/

/-- The number two fields spell side by side. -/
theorem toNat_append {v w : Nat} (x : BitVec v) (y : BitVec w) : (x ++ y).toNat = 2 ^ w * x.toNat + y.toNat := by
  rw [BitVec.toNat_append, ← Nat.shiftLeft_add_eq_or_of_lt y.isLt, Nat.shiftLeft_eq, Nat.mul_comm]

/-- A register number of one extension bit and a field of three (R82). -/
theorem extended_toNat (ext : Bool) (field : BitVec 3) : (BitVec.ofBool ext ++ field).toNat = 8 * ext.toNat + field.toNat := by
  simp only [toNat_append, BitVec.toNat_ofBool, Nat.reducePow]

/-! ## Base, index and scale (R86) -/

/-- The index register's number, if there is one. -/
theorem sibIndex_toNat (c : AddrContext) (index : BitVec 3) : (sibIndex c index).map BitVec.toNat = indexNumber c.xx index := by
  have hfour : BitVec.ofBool c.xx ++ index = 4#4 ↔ 8 * c.xx.toNat + index.toNat = 4 := by
    rw [← extended_toNat]
    exact BitVec.toNat_inj.symm
  unfold sibIndex indexNumber
  simp only [hfour]
  split
  · rfl
  · exact congrArg some (extended_toNat c.xx index)

/-- A context takes base, index and scale from its extension bits. -/
theorem namesRegisters (c : AddrContext) : NamesRegisters c c.bx c.xx := by
  intro m unit
  cases m with
  | base rm disp => exact ⟨congrArg some (extended_toNat c.bx rm), rfl, rfl⟩
  | ripRel disp => exact ⟨rfl, rfl, rfl⟩
  | sib scale index base disp => exact ⟨congrArg some (extended_toNat c.bx base), sibIndex_toNat c index, rfl⟩
  | sibNoBase scale index disp => exact ⟨rfl, sibIndex_toNat c index, rfl⟩

/-- The value of the register a number names. -/
theorem gprByNumber_map_toNat (s : State) (n : Option (BitVec 4)) :
    gprByNumber s (n.map BitVec.toNat) = (registerOrZero s n).toNat := by
  cases n with
  | none => rfl
  | some n => simp [gprByNumber, registerOrZero]

/-! ## Displacements (R90) -/

/-- A 32-bit displacement is never scaled. -/
theorem dispValue_disp32_toInt (n : Nat) (d : BitVec 32) : (dispValue n (.disp32 d)).toInt = d.toInt :=
  BitVec.toInt_signExtend_of_le (by decide)

/-- An 8-bit displacement times a factor of at most 64 does not wrap. -/
theorem dispValue_disp8_toInt {n : Nat} (hn : n ≤ 64) (d : BitVec 8) : (dispValue n (.disp8 d)).toInt = d.toInt * n := by
  have hd : d.toInt < 128 := BitVec.toInt_lt
  have hd' : -128 ≤ d.toInt := BitVec.le_toInt d
  have hfactor : (BitVec.ofNat 64 n).toInt = n := by
    rw [BitVec.toInt_eq_toNat_bmod, BitVec.toNat_ofNat, Nat.mod_eq_of_lt (by omega)]
    exact Int.bmod_eq_of_le (by omega) (by omega)
  rw [dispValue, BitVec.toInt_mul, BitVec.toInt_signExtend_of_le (by decide), hfactor]
  have hlo : -(128 * 64) ≤ d.toInt * n := by nlinarith
  have hhi : d.toInt * n ≤ 128 * 64 := by nlinarith
  exact Int.bmod_eq_of_le (by omega) (by omega)

/-- A context scales an 8-bit displacement of every operand shape by its factor. -/
theorem hasDisplacement {c : AddrContext} (hc : c.disp8Factor ≤ 64) : HasDisplacement c c.disp8Factor := by
  have hdisp : ∀ disp, (dispValue c.disp8Factor disp).toInt = displacementOf c.disp8Factor disp := by
    intro disp
    cases disp with
    | none => rfl
    | disp8 d => exact dispValue_disp8_toInt hc d
    | disp32 d => exact dispValue_disp32_toInt _ d
  intro b x m
  cases m with
  | base rm disp => exact hdisp disp
  | ripRel disp => exact dispValue_disp32_toInt c.disp8Factor disp
  | sib scale index base disp => exact hdisp disp
  | sibNoBase scale index disp => exact dispValue_disp32_toInt c.disp8Factor disp

/-- The factor of an EVEX form as R90 gives it. -/
theorem evexBytes_cast (lanes : Nat) (e : Evex) : (evexBytes lanes e : Int) = if e.bcst then 8 else 8 * (lanes : Int) := by
  cases h : e.bcst <;> simp [evexBytes, h]

/-- The factor of an EVEX form is at most 64. -/
theorem evexBytes_le {lanes : Nat} (h : lanes ≤ 8) (e : Evex) : evexBytes lanes e ≤ 64 := by
  unfold evexBytes
  split <;> omega

/-! ## Effective addresses (R87, R88) -/

/-- A word is its signed value modulo 2^64. -/
theorem toNat_eq_toInt_emod (x : Quad) : (x.toNat : Int) = x.toInt % 2 ^ 64 := by
  rw [BitVec.toInt_eq_toNat_bmod]
  exact (Int.bmod_emod.trans (Int.emod_eq_of_lt (by omega) (by omega))).symm

/-- The address of an operand that is not RIP-relative, as a truncated sum. -/
theorem effectiveAddress_toNat (c : AddrContext) (s : State) {m : MemOperand} (hm : ∀ d, m ≠ .ripRel d) :
    (effectiveAddress c s m).toNat =
      ((registerOrZero s (baseRegister c m)).toNat + (registerOrZero s (indexRegister c m)).toNat * 2 ^ scaleOf m +
        (dispOf c m).toNat) % 2 ^ 64 := by
  have hbase : baseValue c s m = registerOrZero s (baseRegister c m) := by
    cases m with
    | ripRel d => exact absurd rfl (hm d)
    | _ => rfl
  simp [effectiveAddress, hbase, BitVec.toNat_add, BitVec.toNat_shiftLeft, Nat.shiftLeft_eq, Nat.add_mod]

/-- A RIP-relative address as a truncated sum. -/
theorem effectiveAddress_ripRel_toNat (c : AddrContext) (s : State) (d : BitVec 32) :
    ((effectiveAddress c s (.ripRel d)).toNat : Int) = ((s.pc.toNat : Int) + c.len + d.toInt) % 2 ^ 64 := by
  have hd : ((d.signExtend 64).toNat : Int) = d.toInt % 2 ^ 64 := by
    rw [toNat_eq_toInt_emod, BitVec.toInt_signExtend_of_le (by decide)]
  rw [effectiveAddress_ripRel, BitVec.toNat_add, BitVec.toNat_add, BitVec.toNat_ofNat]
  push_cast
  rw [hd]
  omega

/-! ## The segment (R89) -/

/-- The segment is SS exactly for the base registers numbered 4 and 5. -/
theorem segmentOf_eq (c : AddrContext) (m : MemOperand) {n : Option Nat} (hn : (baseRegister c m).map BitVec.toNat = n) :
    segmentOf c m = if n = some 4 ∨ n = some 5 then .ss else .ds := by
  subst hn
  cases h : baseRegister c m with
  | none => simp [segmentOf, h]
  | some r =>
    have h4 : r = 4#4 ↔ r.toNat = 4 := BitVec.toNat_inj.symm
    have h5 : r = 5#4 ↔ r.toNat = 5 := BitVec.toNat_inj.symm
    simp [segmentOf, h, h4, h5]

/-- An extension bit keeps a register's number from 4 and 5. -/
theorem extended_eq_four_or_five : ∀ (ext : Bool) (field : BitVec 3),
    BitVec.ofBool ext ++ field = 4#4 ∨ BitVec.ofBool ext ++ field = 5#4 ↔ ext = false ∧ (field = 4#3 ∨ field = 5#3) := by
  decide

/-- With a base register the segment is SS exactly when the base is RSP or RBP, which an extension bit excludes. -/
theorem segmentOf_eq_ss_iff (c : AddrContext) (m : MemOperand) {field : BitVec 3}
    (h : baseRegister c m = some (BitVec.ofBool c.bx ++ field)) :
    segmentOf c m = .ss ↔ c.bx = false ∧ (field = 4#3 ∨ field = 5#3) := by
  simp only [← extended_eq_four_or_five, segmentOf, h, Option.some.injEq]
  split <;> simp [*]

/-! ## The read of each instruction -/

/-- The context each instruction's memory operand is read in. -/
def addrContext (i : Instr) : AddrContext :=
  match i with
  | .pmuludqMm rex _ _ => legacyContext rex i.len
  | .pmuludqXmm rex _ _ => legacyContext rex i.len
  | .vpmuludqVexXmm vex _ _ => vexContext vex i.len
  | .vpmuludqVexYmm vex _ _ => vexContext vex i.len
  | .vpmuludqEvexXmm e _ _ => evexContext 2 e i.len
  | .vpmuludqEvexYmm e _ _ => evexContext 4 e i.len
  | .vpmuludqEvexZmm e _ _ => evexContext 8 e i.len

/-- An instruction's read has the address and the segment of its operand in that context. -/
theorem accessOfInstr_addrContext {i : Instr} {m : MemOperand} (s : State) (h : i.rm = .mem m) :
    ∃ a, accessOfInstr i s = some a ∧ a.addr = effectiveAddress (addrContext i) s m ∧
      a.segment = segmentOf (addrContext i) m := by
  cases i <;> cases h <;> exact ⟨_, rfl, rfl, rfl⟩

/-- The length in the context is the instruction's own. -/
theorem addrContext_len (i : Instr) : (addrContext i).len = i.len := by cases i <;> rfl

/-- The context's extension bits are those of R86. -/
theorem addrContext_extensions (i : Instr) :
    (addrContext i).bx = baseExtension i ∧ (addrContext i).xx = indexExtension i := by
  cases i with
  | pmuludqMm rex => cases rex <;> exact ⟨rfl, rfl⟩
  | pmuludqXmm rex => cases rex <;> exact ⟨rfl, rfl⟩
  | vpmuludqVexXmm vex => cases vex <;> exact ⟨rfl, rfl⟩
  | vpmuludqVexYmm vex => cases vex <;> exact ⟨rfl, rfl⟩
  | _ => exact ⟨rfl, rfl⟩

/-- The context's factor is that of R90. -/
theorem addrContext_disp8Factor (i : Instr) :
    ((addrContext i).disp8Factor : Int) = displacementUnit i ∧ (addrContext i).disp8Factor ≤ 64 := by
  cases i with
  | vpmuludqEvexXmm e => exact ⟨evexBytes_cast 2 e, evexBytes_le (by decide) e⟩
  | vpmuludqEvexYmm e => exact ⟨evexBytes_cast 4 e, evexBytes_le (by decide) e⟩
  | vpmuludqEvexZmm e => exact ⟨evexBytes_cast 8 e, evexBytes_le (by decide) e⟩
  | _ => exact ⟨rfl, show 1 ≤ 64 by decide⟩

/-- The context takes an instruction's base, index, scale and displacement from its own fields. -/
theorem addrContext_parts (i : Instr) (m : MemOperand) :
    (baseRegister (addrContext i) m).map BitVec.toNat = (partsOf i m).base ∧
      (indexRegister (addrContext i) m).map BitVec.toNat = (partsOf i m).index ∧
      scaleOf m = (partsOf i m).scale ∧ (dispOf (addrContext i) m).toInt = (partsOf i m).disp := by
  obtain ⟨hbx, hxx⟩ := addrContext_extensions i
  obtain ⟨hfactor, hle⟩ := addrContext_disp8Factor i
  obtain ⟨hbase, hindex, hscale⟩ := namesRegisters (addrContext i) m (displacementUnit i)
  have hdisp := hasDisplacement hle (baseExtension i) (indexExtension i) m
  rw [hbx, hxx] at hbase hindex hscale
  rw [hfactor] at hdisp
  exact ⟨hbase, hindex, hscale, hdisp⟩

/-- An address computed from an instruction's own fields, as a truncated sum. -/
theorem effectiveAddress_parts (i : Instr) (s : State) {m : MemOperand} (hm : ∀ d, m ≠ .ripRel d) :
    ((effectiveAddress (addrContext i) s m).toNat : Int) =
      (gprByNumber s (partsOf i m).base + gprByNumber s (partsOf i m).index * 2 ^ (partsOf i m).scale +
        (partsOf i m).disp) % 2 ^ 64 := by
  obtain ⟨hbase, hindex, hscale, hdisp⟩ := addrContext_parts i m
  rw [← hbase, ← hindex, ← hscale, ← hdisp, gprByNumber_map_toNat, gprByNumber_map_toNat, effectiveAddress_toNat _ s hm]
  have := toNat_eq_toInt_emod (dispOf (addrContext i) m)
  push_cast
  omega

/-! ## Mode and illegal encodings -/

/-- Outside 64-bit mode the checks refuse every form (R96). -/
theorem gated_outside {f : Form} {illegal : Bool} {s : State} (k : Out) (h : s.mode64 = false) :
    gated f illegal s k = .refused .outside64BitMode := if_pos h

/-- An illegal encoding raises #UD in 64-bit mode (R94 (h), (i)). -/
theorem exec_illegalEncoding {i : Instr} {s : State} (hmode : s.mode64 = true) (hi : illegalEncoding i = true) :
    exec i s = .fault (.invalidOpcode s.pc) := by
  obtain ⟨k, hk, -⟩ := exec_shape i s
  rw [hk, gated_of_ud k hmode (by simp [udCondition, hi])]

/-- Broadcast with a register operand is illegal (R84). -/
theorem evexIllegal_of_broadcast {e : Evex} (h : e.bcst = true) (r : BitVec 3) : evexIllegal e (.reg r) = true := by
  simp [evexIllegal, h, Rm.isMemory]

/-- Zeroing without a writemask is illegal (R84). -/
theorem evexIllegal_of_zeroing {e : Evex} (hz : e.z = true) (ha : e.aaa = 0#3) (rm : Rm) : evexIllegal e rm = true := by
  simp [evexIllegal, hz, ha]

end Sys2Proof.Machine
end

section
/-! PROOFS. 30_encoding.md: decoding against encoding, the encodings that are refused or invalid, and the length of an instruction. -/

namespace Sys2Proof

open Sys2Proof.Machine

/-- Settles O5: the decoder reads exactly what the encoder writes. -/
theorem decodeOfEncodeIsTheInstruction : Obligations.DecodeOfEncodeIsTheInstruction :=
  fun _ _ hwf => decode_eq_instr.mpr ⟨hwf, rfl⟩

/-- Settles O6: the decoder reads only what the encoder writes. -/
theorem encodeOfDecodeIsTheBytes : Obligations.EncodeOfDecodeIsTheBytes :=
  fun _ _ _ h => decode_eq_instr.mp h

/-- Settles O10: before a legacy form the prefix bytes are all the bytes before `0F F4`, its own 66 and REX included; before a VEX or
EVEX form a segment override or 67 alone is refused. -/
theorem refusedPrefixesAreRefused : Obligations.RefusedPrefixesAreRefused := by
  refine ⟨fun p i rest hwf hi hp => ?_, fun p i rest hwf hp => ?_, fun rex reg rm rest hwf => ?_⟩
  · have hps : ∀ q ∈ [p], isPrefixByte q = true := List.forall_mem_singleton.mpr (by rcases hp with rfl | rfl <;> rfl)
    have hmem : ∀ qs : List Byte, 0xF2 ∈ [p] ++ qs ∨ 0xF3 ∈ [p] ++ qs := by rcases hp with rfl | rfl <;> simp
    cases i with
    | pmuludqMm rex reg rm =>
      exact (decode_pmuludqMm hps rex hwf rest).trans (legacyForm_repeatPrefix (hmem _) reg rm rest)
    | pmuludqXmm rex reg rm =>
      exact (decode_pmuludqXmm hps rex hwf rest).trans (legacyForm_repeatPrefix (hmem _) reg rm rest)
    | _ => exact nomatch hi
  · obtain ⟨hprefix, hfree⟩ : isPrefixByte p = true ∧ forbiddenBeforeVex p = false := by
      rcases hp with rfl | rfl | rfl | rfl | rfl | rfl | rfl <;> decide
    exact decode_prefixNotAdmitted hprefix hfree hwf rest
  · have hps : ∀ q ∈ [(0x66 : Byte)], isPrefixByte q = true := List.forall_mem_singleton.mpr rfl
    have h66 : (0x66 : Byte) ≠ 0xF2 ∧ (0x66 : Byte) ≠ 0xF3 ∧ (0x66 : Byte) ≠ 0xF0 := by decide
    exact (decode_pmuludqXmm hps rex hwf rest).trans
      (legacyForm_prefixNotAdmitted
        (List.forall_mem_cons.mpr ⟨h66, List.forall_mem_cons.mpr ⟨h66, rexBytes_ne rex⟩⟩)
        (cons_ne_rexBytes (by decide) _) (fun _ heq => cons_ne_rexBytes (by decide) _ _ (List.cons.inj heq).2) reg rm rest)

/-- Settles O11: the operand is read before EVEX.L'L chooses no form, and W is among the fixed fields. -/
theorem reservedEvexFields : Obligations.ReservedEvexFields := by
  refine ⟨fun e reg rm rest hwf => ?_, fun p0 p1 p2 op rest hW => ?_⟩
  · simpa [afterPrefixes, evexForm] using decode_evex (ps := []) nofun 3#2 e hwf rest
  · have hfields : evexFieldsOk p0 p1 op = false := by
      simp only [evexFieldsOk, hW, Bool.and_false, Bool.false_and]
    refine (decode_append (ps := []) nofun rfl _).trans ?_
    rw [decodeOpcode_62]
    simp [decodeEvex, hfields, afterPrefixes]

/-- Settles O13: fifteen bytes that do not end are the fetch's own case, and every instruction read has the length of its encoding. -/
theorem overLongInstructionIsRefused : Obligations.OverLongInstructionIsRefused := by
  refine ⟨fun s hmode hlen hdecode => ?_, fun bs i rest h => ?_⟩
  · simp [step, fetch, hmode, hlen, hdecode, maxInstrLen]
  · obtain ⟨-, rfl⟩ := decode_eq_instr.mp h
    obtain ⟨hlen, -⟩ := instr_length i
    exact ⟨by rw [List.length_append, hlen], instr_len_bounds i⟩

/-- Settles O15: the numbers are fields side by side, the extension bits are fields, and a context names registers with its own. -/
theorem registerNumbersFollowTheFields : Obligations.RegisterNumbersFollowTheFields := by
  refine ⟨fun x n => ?_, fun vex => ?_, fun e n => ?_, fun e => ?_, fun e n => ?_, ⟨rfl, rfl, rfl⟩, fun r => ⟨rfl, rfl, rfl⟩,
    fun r vvvv => ⟨rfl, rfl, rfl, rfl⟩, fun w r x b vvvv => ⟨rfl, rfl, rfl, rfl⟩, fun rex len => namesRegisters _,
    fun vex len => namesRegisters _, fun lanes e len => namesRegisters _⟩
  · simp only [regNumber4, toNat_append, BitVec.toNat_ofBool, BitVec.toNat_ofNat]
    omega
  · simp only [vexVNumber, toNat_append, BitVec.toNat_ofNat]
    omega
  · simp only [evexRegNumber, toNat_append, BitVec.toNat_ofBool]
    omega
  · simp only [evexVNumber, toNat_append, BitVec.toNat_ofBool, Nat.reducePow]
  · simp only [evexRmNumber, toNat_append, BitVec.toNat_ofBool]
    omega

/-- Settles O16: the sum in words is the sum of numbers modulo 2^64, its parts are the instruction's own fields, and the
general-purpose registers are in the frame of every instruction. -/
theorem effectiveAddressIsTheTruncatedSum : Obligations.EffectiveAddressIsTheTruncatedSum := by
  refine ⟨fun c s m hm => effectiveAddress_toNat c s hm, namesRegisters, fun i s m h hm => ?_, fun i s t h => ?_⟩
  · obtain ⟨a, ha, haddr, -⟩ := accessOfInstr_addrContext s h
    exact ⟨a, ha, haddr ▸ effectiveAddress_parts i s hm⟩
  · obtain ⟨-, -, -, hx, -⟩ := exec_sameElsewhere h
    exact hx

/-- Settles O17: the address starts at `pc + len`, with the instruction's own length. -/
theorem ripRelativeAddressIsFromTheNextInstruction : Obligations.RipRelativeAddressIsFromTheNextInstruction := by
  refine ⟨effectiveAddress_ripRel_toNat, fun i s d h => ?_⟩
  obtain ⟨a, ha, haddr, -⟩ := accessOfInstr_addrContext s h
  exact ⟨a, ha, by rw [haddr, effectiveAddress_ripRel_toNat, addrContext_len]⟩

/-- Settles O18: the segment depends on the number of the base register alone. -/
theorem stackSegmentOnlyForRspAndRbp : Obligations.StackSegmentOnlyForRspAndRbp := by
  refine ⟨fun c rm disp => segmentOf_eq_ss_iff c _ rfl, fun c scale index base disp => segmentOf_eq_ss_iff c _ rfl,
    fun c d => rfl, fun c scale index d => rfl, fun i s m h => ?_⟩
  obtain ⟨a, ha, -, hseg⟩ := accessOfInstr_addrContext s h
  obtain ⟨hbase, -⟩ := addrContext_parts i m
  exact ⟨a, ha, hseg.trans (segmentOf_eq _ m hbase)⟩

/-- Settles O19: the factor is 1 in forms 1 to 4 and the operand's size in forms 5 to 7, never more than 64, so that no scaled
displacement wraps. -/
theorem displacementIsScaledOnlyInEvexForms : Obligations.DisplacementIsScaledOnlyInEvexForms := by
  have hone : (1 : Nat) ≤ 64 := by decide
  have hlanes : ∀ {lanes : Nat}, lanes = 2 ∨ lanes = 4 ∨ lanes = 8 → lanes ≤ 8 := by omega
  refine ⟨fun rex len d => ?_, fun vex len d => ?_, fun e lanes len d h => ?_, dispValue_disp32_toInt,
    fun b0 b1 b2 b3 rest => ⟨join32 b0 b1 b2 b3, rfl, ?_⟩, fun rex len => hasDisplacement hone,
    fun vex len => hasDisplacement hone, fun e lanes len h => ?_⟩
  · exact (dispValue_disp8_toInt hone d).trans (Int.mul_one _)
  · exact (dispValue_disp8_toInt hone d).trans (Int.mul_one _)
  · exact evexBytes_cast lanes e ▸ dispValue_disp8_toInt (evexBytes_le (hlanes h) e) d
  · simp only [join32, toNat_append]
    omega
  · exact evexBytes_cast lanes e ▸ hasDisplacement (c := evexContext lanes e len) (evexBytes_le (hlanes h) e)

/-- Settles O4: the five words are closed, and the decoder and the line of an instruction compute. -/
theorem specWordsDecode : Obligations.SpecWordsDecode := by
  unfold Obligations.SpecWordsDecode
  decide

/-- Settles O7: the fetch answers the instruction, and a step is then exec of it. -/
theorem stepRunsDecodedInstruction : Obligations.StepRunsDecodedInstruction := by
  intro s i rest hmode hdecode
  have hfetch : fetch s = .ok i := fetch_ok.mpr ⟨hmode, rest, hdecode⟩
  rw [step, hfetch]

/-- Settles O12: the fetch and the checks of every form test the mode first. -/
theorem outsideModeEverythingIsRefused : Obligations.OutsideModeEverythingIsRefused := by
  refine fun s hmode => ⟨?_, fun i => ?_⟩
  · have hfetch : fetch s = .error (.refused .outside64BitMode) := if_pos hmode
    rw [step, hfetch]
  · obtain ⟨k, hk, -⟩ := exec_shape i s
    rw [hk, gated_outside k hmode]

/-- Settles O38: no meaning reads the W bit, and form 1 with a register operand reads no bit of its REX prefix. -/
theorem ignoredPrefixBits : Obligations.IgnoredPrefixBits := by
  refine ⟨fun r b reg rm s => ?_, fun r b reg rm s => ?_, fun w w' r x b vvvv reg rm s => ?_,
    fun w w' r x b vvvv reg rm s => ?_, fun r r' reg n s => rfl⟩
  all_goals cases rm <;> rfl

/-- Settles O47: both combinations are illegal encodings of their form. -/
theorem illegalEvexCombinationsRaiseUd : Obligations.IllegalEvexCombinationsRaiseUd := by
  refine ⟨⟨?_, ?_⟩, ⟨?_, ?_⟩, ?_, ?_⟩
  case refine_1 | refine_3 | refine_5 =>
    exact fun e reg r s hmode hb => exec_illegalEncoding hmode (evexIllegal_of_broadcast hb r)
  case refine_2 | refine_4 | refine_6 =>
    exact fun e reg rm s hmode hz ha => exec_illegalEncoding hmode (evexIllegal_of_zeroing hz ha rm)

end Sys2Proof
end

section
/-! PROOFS. 40_pmuludq_legacy.md, the facts its statements share: the product of a lane and what it depends on, when an operand's read
is permitted, the frame of one register written, what the legacy forms complete with, and the lanes a register operand gives. -/

namespace Sys2Proof.Machine

open Sys2Proof.Statements

/-! ## The lane operation (R110, R111, R113) -/

/-- A product of two doublewords is at most the square of the largest one (R111). -/
theorem dwordProduct_le (a b : Quad) : dwordProduct a b ≤ 0xFFFFFFFE00000001 := by
  have ha : a.toNat % 2 ^ 32 ≤ 2 ^ 32 - 1 := by omega
  have hb : b.toNat % 2 ^ 32 ≤ 2 ^ 32 - 1 := by omega
  exact Nat.mul_le_mul ha hb

/-- The 64-bit product does not wrap (R111). -/
theorem laneProduct_toNat (a b : Quad) : (laneProduct a b).toNat = dwordProduct a b := by
  have hzext : ∀ q : Quad, ((lowDword q).setWidth 64).toNat = q.toNat % 2 ^ 32 := by
    intro q
    simp only [lowDword, BitVec.toNat_setWidth]
    omega
  have hlt : dwordProduct a b < 2 ^ 64 := (dwordProduct_le a b).trans_lt (by decide)
  rw [laneProduct, BitVec.toNat_mul, hzext, hzext]
  exact Nat.mod_eq_of_lt hlt

/-- A product depends on the low doublewords alone (R113). -/
theorem laneProduct_congr {a a' b b' : Quad} (ha : lowDword a' = lowDword a) (hb : lowDword b' = lowDword b) :
    laneProduct a' b' = laneProduct a b := by
  rw [laneProduct, ha, hb, laneProduct]

/-- An MMX register widened to a container is its lane 0. -/
theorem lane_setWidth (q : Quad) : lane (q.setWidth 512) 0 = q := by
  apply BitVec.eq_of_toNat_eq
  simp only [lane, BitVec.extractLsb'_toNat, BitVec.toNat_setWidth, Nat.mul_zero, Nat.shiftRight_zero]
  omega

/-! ## Reading a memory operand (R57, R60) -/

/-- What permits a read: canonical and readable bytes, and the alignment its rule asks for. -/
theorem Access.permitted_iff {a : Access} {s : State} :
    a.permitted s = true ↔ s.canonicalRange a.addr.toNat a.bytes = true ∧ s.readableRange a.addr.toNat a.bytes = true ∧
      (a.alignment = .sixteen → a.addr.toNat % 16 = 0) ∧
      (a.alignment = .checkedEight → s.alignmentCheckEnabled = true → a.addr.toNat % 8 = 0) := by
  unfold Access.permitted Access.misaligned16 Access.misaligned8
  cases a.alignment with
  | any => simp
  | sixteen => simp [and_comm, and_left_comm, and_assoc]
  | checkedEight => simp [and_assoc, imp_iff_not_or]

/-- The source of form 1 in memory. -/
theorem mmSource_mem {rex : Option Rex} {reg : BitVec 3} {m : MemOperand} {s : State}
    (hreach : Reaches (.pmuludqMm rex reg (.mem m)) 8 s)
    (halign : s.alignmentCheckEnabled = true → addressOf (.pmuludqMm rex reg (.mem m)) s % 8 = 0) :
    mmSource rex (Instr.len (.pmuludqMm rex reg (.mem m))) s (.mem m) =
      .ok (s.memValue (addressOf (.pmuludqMm rex reg (.mem m)) s) 8) :=
  Access.load_of_permitted (Access.permitted_iff.mpr ⟨hreach.1, hreach.2, nofun, fun _ => halign⟩)

/-- The source of form 2 in memory. -/
theorem xmmSource_mem {rex : Option Rex} {reg : BitVec 3} {m : MemOperand} {s : State}
    (hreach : Reaches (.pmuludqXmm rex reg (.mem m)) 16 s) (halign : addressOf (.pmuludqXmm rex reg (.mem m)) s % 16 = 0) :
    xmmSource rex (Instr.len (.pmuludqXmm rex reg (.mem m))) s (.mem m) =
      .ok (s.memValue (addressOf (.pmuludqXmm rex reg (.mem m)) s) 16) :=
  Access.load_of_permitted (Access.permitted_iff.mpr ⟨hreach.1, hreach.2, fun _ => halign, nofun⟩)

/-! ## One register written, and `pc` advanced -/

/-- Advancing `pc` leaves the MMX registers. -/
@[simp] theorem advance_mmReg (s : State) (len : Nat) (n : BitVec 3) : (s.advance len).mmReg n = s.mmReg n := rfl

/-- Writing an MMX register and advancing changes that register and `pc` only. -/
theorem onlyMm_setMm_advance (s : State) (d : BitVec 3) (q : Quad) (len : Nat) : OnlyMm d s ((s.setMm d q).advance len) :=
  ⟨rfl, fun n hn => setMm_mmReg_of_ne s d n q hn, SameElsewhere.refl s⟩

/-- Writing a vector register and advancing changes that register and `pc` only. -/
theorem onlyVec_setVec_advance (s : State) (d : BitVec 5) (val : Vec) (len : Nat) :
    OnlyVec d s ((s.setVec d val).advance len) :=
  ⟨fun n hn => setVec_vec_of_ne s d n val hn, rfl, SameElsewhere.refl s⟩

/-! ## What the legacy forms complete with, for any source that can be read (R120, R121) -/

/-- Form 1 completes with the product of its destination and lane 0 of its source. -/
theorem exec_pmuludqMm_completes {rex : Option Rex} {reg : BitVec 3} {rm : Rm} {s : State} {src : Vec}
    (hready : s.ready .mm = true) (hfall : s.fallsThrough (.pmuludqMm rex reg rm) = true)
    (hsrc : mmSource rex (Instr.len (.pmuludqMm rex reg rm)) s rm = .ok src) :
    ∃ t, exec (.pmuludqMm rex reg rm) s = .next t ∧
      (t.mmReg reg).toNat = dwordProduct (s.mmReg reg) (lane src 0) ∧
      Advanced (.pmuludqMm rex reg rm) s t ∧ OnlyMm reg s t := by
  refine ⟨_, execPmuludqMm_next.mpr ⟨hready, hfall, src, hsrc, rfl⟩, ?_, rfl, onlyMm_setMm_advance s _ _ _⟩
  rw [advance_mmReg, setMm_mmReg_self, laneProduct_toNat]

/-- Form 2 completes with two products in the low lanes of its destination, and keeps the bits from 128 up. -/
theorem exec_pmuludqXmm_completes {rex : Option Rex} {reg : BitVec 3} {rm : Rm} {s : State} {src : Vec}
    (hready : s.ready .xmm = true) (hfall : s.fallsThrough (.pmuludqXmm rex reg rm) = true)
    (hsrc : xmmSource rex (Instr.len (.pmuludqXmm rex reg rm)) s rm = .ok src) :
    ∃ t, exec (.pmuludqXmm rex reg rm) s = .next t ∧
      (∀ j, j < 2 → (lane (t.vec (regNumber4 (rexR rex) reg)) j).toNat =
        dwordProduct (lane (s.vec (regNumber4 (rexR rex) reg)) j) (lane src j)) ∧
      (∀ n, 128 ≤ n → (t.vec (regNumber4 (rexR rex) reg)).getLsbD n = (s.vec (regNumber4 (rexR rex) reg)).getLsbD n) ∧
      Advanced (.pmuludqXmm rex reg rm) s t ∧ OnlyVec (regNumber4 (rexR rex) reg) s t := by
  refine ⟨_, execPmuludqXmm_next.mpr ⟨hready, hfall, src, hsrc, rfl⟩, fun j hj => ?_, fun n hn => ?_, rfl,
    onlyVec_setVec_advance s _ _ _⟩
  · rw [advance_vec, setVec_vec_self, lane_replaceLow128, if_pos hj, lane_mulLanes _ _ (by decide) hj, laneProduct_toNat]
  · rw [advance_vec, setVec_vec_self, replaceLow128_getLsbD, if_neg hn.not_gt]

/-! ## The lanes each form leaves, with a register operand -/

/-- Form 1 leaves the product of its two MMX registers. -/
theorem execPmuludqMm_reg_mmReg {rex : Option Rex} {reg r : BitVec 3} {s t : State}
    (h : execPmuludqMm rex reg (.reg r) s = .next t) : t.mmReg reg = laneProduct (s.mmReg reg) (s.mmReg r) := by
  obtain ⟨-, -, src, hsrc, rfl⟩ := execPmuludqMm_next.mp h
  obtain rfl := Except.ok.inj hsrc
  rw [advance_mmReg, setMm_mmReg_self, lane_setWidth]

/-- Form 2 leaves in each low lane the product of the destination's and the source's. -/
theorem execPmuludqXmm_reg_lane {rex : Option Rex} {reg r : BitVec 3} {s t : State} {j : Nat}
    (h : execPmuludqXmm rex reg (.reg r) s = .next t) (hj : j < 2) :
    lane (t.vec (regNumber4 (rexR rex) reg)) j =
      laneProduct (lane (s.vec (regNumber4 (rexR rex) reg)) j) (lane (s.vec (regNumber4 (rexB rex) r)) j) := by
  obtain ⟨-, -, src, hsrc, rfl⟩ := execPmuludqXmm_next.mp h
  obtain rfl := Except.ok.inj hsrc
  rw [advance_vec, setVec_vec_self, lane_replaceLow128, if_pos hj, lane_mulLanes _ _ (by decide) hj]

/-- A VEX form leaves in each lane the product of its two sources'. -/
theorem execVex_reg_lane {f : Form} {len : Nat} {vex : Vex} {reg r : BitVec 3} {s t : State} {j : Nat}
    (h : execVex f len vex reg (.reg r) s = .next t) (hj : j < f.lanes) :
    lane (t.vec (regNumber4 (vexR vex) reg)) j =
      laneProduct (lane (s.vec (vexVNumber vex)) j) (lane (s.vec (regNumber4 (vexB vex) r)) j) := by
  obtain ⟨-, -, src, hsrc, rfl⟩ := execVex_next.mp h
  obtain rfl := Except.ok.inj hsrc
  rw [advance_vec, setVec_vec_self, lane_mulLanes _ _ (Form.lanes_le_eight f) hj]

/-- An EVEX form leaves a product in a computed lane, and in the others 0 or the old lane. -/
theorem execEvex_reg_lane {f : Form} {len : Nat} {e : Evex} {reg r : BitVec 3} {s t : State} {j : Nat}
    (h : execEvex f len e reg (.reg r) s = .next t) (hj : j < f.lanes) :
    lane (t.vec (evexRegNumber e reg)) j =
      if evexActive s e j then laneProduct (lane (s.vec (evexVNumber e)) j) (lane (s.vec (evexRmNumber e r)) j)
      else if e.z then 0 else lane (s.vec (evexRegNumber e reg)) j := by
  obtain ⟨-, -, -, src, hsrc, rfl⟩ := execEvex_next.mp h
  obtain rfl := Except.ok.inj hsrc
  rw [advance_vec, setVec_vec_self, evexResult, lane_mulLanesMasked _ _ _ _ _ (Form.lanes_le_eight f) hj]
  simp [evexSecond, Rm.isMemory]

/-! ## States that differ in odd doublewords (R113) -/

section OddDoublewords

variable {s s' t t' : State} (hsame : SameEvenDwords s s')
include hsame

/-- Such states give the same products of MMX registers. -/
theorem laneProduct_mmReg_eq (m n : BitVec 3) :
    laneProduct (s'.mmReg m) (s'.mmReg n) = laneProduct (s.mmReg m) (s.mmReg n) := by
  obtain ⟨-, -, hmm⟩ := hsame
  exact laneProduct_congr (hmm m) (hmm n)

/-- Such states give the same products of vector lanes. -/
theorem laneProduct_vec_eq (m n : BitVec 5) {j : Nat} (hj : j < 8) :
    laneProduct (lane (s'.vec m) j) (lane (s'.vec n) j) = laneProduct (lane (s.vec m) j) (lane (s.vec n) j) := by
  obtain ⟨-, hvec, -⟩ := hsame
  exact laneProduct_congr (hvec m j hj) (hvec n j hj)

/-- Such states compute the same lanes. -/
theorem evexActive_eq (e : Evex) (j : Nat) : evexActive s' e j = evexActive s e j := by
  obtain ⟨hframe, -, -⟩ := hsame
  exact (congrArg (evexActive · e j) hframe :)

/-- From such states a VEX form leaves the same destination lanes. -/
theorem execVex_lane_eq {f : Form} {len : Nat} {vex : Vex} {reg r : BitVec 3} {j : Nat}
    (h : execVex f len vex reg (.reg r) s = .next t) (h' : execVex f len vex reg (.reg r) s' = .next t')
    (hj : j < f.lanes) :
    lane (t'.vec (regNumber4 (vexR vex) reg)) j = lane (t.vec (regNumber4 (vexR vex) reg)) j := by
  rw [execVex_reg_lane h hj, execVex_reg_lane h' hj]
  exact laneProduct_vec_eq hsame _ _ (hj.trans_le (Form.lanes_le_eight f))

/-- From such states an EVEX form leaves the same destination lane wherever it does not merge: a computed one is a product, a zeroed
one 0. -/
theorem execEvex_lane_eq {f : Form} {len : Nat} {e : Evex} {reg r : BitVec 3} {j : Nat}
    (h : execEvex f len e reg (.reg r) s = .next t) (h' : execEvex f len e reg (.reg r) s' = .next t')
    (hj : j < f.lanes) (hmerge : e.z = true ∨ e.aaa = 0#3 ∨ (s.opmask e.aaa).getLsbD j = true) :
    lane (t'.vec (evexRegNumber e reg)) j = lane (t.vec (evexRegNumber e reg)) j := by
  rw [execEvex_reg_lane h hj, execEvex_reg_lane h' hj, evexActive_eq hsame,
    laneProduct_vec_eq hsame _ _ (hj.trans_le (Form.lanes_le_eight f))]
  by_cases hactive : evexActive s e j = true
  · rw [if_pos hactive, if_pos hactive]
  · have hz : e.z = true := hmerge.resolve_right fun hm => hactive (by simpa [evexActive] using hm)
    simp [hz]

end OddDoublewords

end Sys2Proof.Machine
end

section
/-! PROOFS. 40_pmuludq_legacy.md: the lane operation, the results of the legacy forms, and the doublewords no form reads. -/

namespace Sys2Proof

open Sys2Proof.Machine

/-- Settles O14: each factor is at most FFFFFFFFh, so the product is at most its square, which 64 bits hold. -/
theorem laneProductIsExact : Obligations.LaneProductIsExact :=
  fun a b => ⟨laneProduct_toNat a b, dwordProduct_le a b⟩

/-- Settles O23: form 1 completes on its register source, whose lane 0 is the whole MMX register. -/
theorem mmxRegisterResult : Obligations.MmxRegisterResult := by
  intro rex reg r s hready hfall
  have hcompletes := exec_pmuludqMm_completes (rm := .reg r) hready hfall rfl
  rwa [lane_setWidth] at hcompletes

/-- Settles O24: the read is permitted, so form 1 completes on the 8 bytes at its operand. -/
theorem mmxMemoryResult : Obligations.MmxMemoryResult :=
  fun _ _ _ _ hready hfall hreach halign => exec_pmuludqMm_completes hready hfall (mmSource_mem hreach halign)

/-- Settles O25: form 2 completes on its register source. -/
theorem xmmRegisterResult : Obligations.XmmRegisterResult :=
  fun _ _ r _ hready hfall => exec_pmuludqXmm_completes (rm := .reg r) hready hfall rfl

/-- Settles O26: the read is permitted, so form 2 completes on the 16 bytes at its operand. -/
theorem xmmMemoryResult : Obligations.XmmMemoryResult :=
  fun _ _ _ _ hready hfall hreach halign => exec_pmuludqXmm_completes hready hfall (xmmSource_mem hreach halign)

/-- Settles O37: every lane that is not merged is a product, which depends on low doublewords alone, or 0. -/
theorem oddDoublewordsDoNotMatter : Obligations.OddDoublewordsDoNotMatter := by
  intro i r s s' t t' hrm hsame h h'
  cases i with
  | pmuludqMm rex reg rm =>
    cases hrm
    refine ⟨fun d hd => ?_, nofun⟩
    cases hd
    rw [execPmuludqMm_reg_mmReg h, execPmuludqMm_reg_mmReg h', laneProduct_mmReg_eq hsame]
  | pmuludqXmm rex reg rm =>
    cases hrm
    refine ⟨nofun, fun d j hd (hj : j < 2) _ => ?_⟩
    cases hd
    rw [execPmuludqXmm_reg_lane h hj, execPmuludqXmm_reg_lane h' hj, laneProduct_vec_eq hsame _ _ (by omega)]
  | vpmuludqVexXmm vex reg rm =>
    cases hrm
    refine ⟨nofun, fun d j hd hj _ => ?_⟩
    cases hd
    exact execVex_lane_eq hsame h h' hj
  | vpmuludqVexYmm vex reg rm =>
    cases hrm
    refine ⟨nofun, fun d j hd hj _ => ?_⟩
    cases hd
    exact execVex_lane_eq hsame h h' hj
  | vpmuludqEvexXmm e reg rm =>
    cases hrm
    refine ⟨nofun, fun d j hd hj hmerge => ?_⟩
    cases hd
    exact execEvex_lane_eq hsame h h' hj (hmerge e reg (.inl rfl))
  | vpmuludqEvexYmm e reg rm =>
    cases hrm
    refine ⟨nofun, fun d j hd hj hmerge => ?_⟩
    cases hd
    exact execEvex_lane_eq hsame h h' hj (hmerge e reg (.inr (.inl rfl)))
  | vpmuludqEvexZmm e reg rm =>
    cases hrm
    refine ⟨nofun, fun d j hd hj hmerge => ?_⟩
    cases hd
    exact execEvex_lane_eq hsame h h' hj (hmerge e reg (.inr (.inr rfl)))

end Sys2Proof
end

section
/-! PROOFS. 41_vpmuludq_vex.md, the facts its statements share: what a VEX form completes with, for any source that can be read, and
what forms 2 to 6 leave in their destination as one function of their sources' values. -/

namespace Sys2Proof.Machine

open Sys2Proof.Statements

/-! ## What a VEX form completes with (R130, R131, R132) -/

/-- The address of an operand in memory is that of the read the instruction asks for. -/
theorem addressOf_eq {i : Instr} {a : Access} {s : State} (h : accessOfInstr i s = some a) : addressOf i s = a.addr.toNat := by
  rw [addressOf, h]

/-- The source of a VEX form in memory, at any alignment (20_memory.md R57). -/
theorem vexSource_mem {i : Instr} {lanes : Nat} {vex : Vex} {m : MemOperand} {s : State}
    (hi : accessOfInstr i s = some (vexAccess lanes vex i.len s m)) (hreach : Reaches i (8 * lanes) s) :
    vexSource lanes vex i.len s (.mem m) = .ok (s.memValue (addressOf i s) (8 * lanes)) := by
  rw [Reaches, addressOf_eq hi] at hreach
  obtain ⟨hcanonical, hreadable⟩ := hreach
  rw [addressOf_eq hi]
  exact Access.load_of_permitted (Access.permitted_iff.mpr ⟨hcanonical, hreadable, nofun, nofun⟩)

/-- A VEX form zeroes its destination from the vector length up (R132). -/
theorem execVex_above {f : Form} {len : Nat} {vex : Vex} {reg : BitVec 3} {rm : Rm} {s t : State} {n : Nat}
    (h : execVex f len vex reg rm s = .next t) (hn : 64 * f.lanes ≤ n) :
    (t.vec (regNumber4 (vexR vex) reg)).getLsbD n = false := by
  obtain ⟨-, -, src, -, rfl⟩ := execVex_next.mp h
  rw [advance_vec, setVec_vec_self, mulLanes_above _ _ (Form.lanes_le_eight f) hn]

/-- A VEX form completes with the products of its first source and its second, whichever way that is read. -/
theorem vexCompletes {i : Instr} {f : Form} {vex : Vex} {reg : BitVec 3} {rm : Rm} {s : State} {src : Vec}
    (hi : exec i s = execVex f i.len vex reg rm s) (hready : s.ready f = true) (hfall : s.fallsThrough i = true)
    (hsrc : vexSource f.lanes vex i.len s rm = .ok src) :
    VexCompletes i f (regNumber4 (vexR vex) reg) (vexVNumber vex) (lane src) s := by
  have hnext := (execVex_next (reg := reg)).mpr ⟨hready, of_decide_eq_true hfall, src, hsrc, rfl⟩
  refine ⟨_, hi.trans hnext, fun j hj => ?_, fun n hn => execVex_above hnext hn, rfl, onlyVec_setVec_advance s _ _ _⟩
  rw [advance_vec, setVec_vec_self, lane_mulLanes _ _ (Form.lanes_le_eight f) hj, laneProduct_toNat]

/-! ## The destination as a function of the sources' values (R133) -/

/-- The low 128 bits after they are replaced. -/
theorem replaceLow128_low (old r : Vec) : (replaceLow128 old r).extractLsb' 0 128 = r.extractLsb' 0 128 := by
  apply BitVec.eq_of_getLsbD_eq
  intro n hn
  simp [replaceLow128_getLsbD, hn]

/-- Without a writemask and without broadcast, an EVEX form's result is the products of its sources' lanes. -/
theorem evexResult_of_unmasked {lanes : Nat} {e : Evex} {reg : BitVec 3} {rm : Rm} {s : State} {src : Vec} (ha : e.aaa = 0#3)
    (hfull : (e.bcst && Rm.isMemory rm) = false) :
    evexResult lanes e reg rm s src = mulLanes lanes (s.vec (evexVNumber e)) src := by
  have hactive : ∀ j, evexActive s e j = true := fun j => by rw [evexActive, ha]; rfl
  have hsecond : evexSecond e rm src = lane src := funext fun j => if_neg (Bool.eq_false_iff.mp hfull)
  simp only [evexResult, mulLanesMasked, mulLanes, hactive, hsecond, if_true]

/-- Form 2 with a register operand. -/
theorem execPmuludqXmm_reg_low {rex : Option Rex} {reg r : BitVec 3} {s t : State}
    (h : execPmuludqXmm rex reg (.reg r) s = .next t) :
    (t.vec (regNumber4 (rexR rex) reg)).extractLsb' 0 128 =
      (mulLanes 2 (s.vec (regNumber4 (rexR rex) reg)) (s.vec (regNumber4 (rexB rex) r))).extractLsb' 0 128 := by
  obtain ⟨-, -, src, hsrc, rfl⟩ := execPmuludqXmm_next.mp h
  obtain rfl := Except.ok.inj hsrc
  rw [advance_vec, setVec_vec_self, replaceLow128_low]

/-- Form 2 with a memory operand. -/
theorem execPmuludqXmm_mem_low {rex : Option Rex} {reg : BitVec 3} {m : MemOperand} {s t : State}
    (h : execPmuludqXmm rex reg (.mem m) s = .next t) :
    (t.vec (regNumber4 (rexR rex) reg)).extractLsb' 0 128 =
      (mulLanes 2 (s.vec (regNumber4 (rexR rex) reg))
        (s.memValue (addressOf (.pmuludqXmm rex reg (.mem m)) s) 16)).extractLsb' 0 128 := by
  obtain ⟨-, -, src, hsrc, rfl⟩ := execPmuludqXmm_next.mp h
  obtain ⟨-, rfl⟩ := Access.load_ok.mp hsrc
  rw [advance_vec, setVec_vec_self, replaceLow128_low]
  rfl

/-- A VEX form with a register operand. -/
theorem execVex_reg_vec {f : Form} {len : Nat} {vex : Vex} {reg r : BitVec 3} {s t : State}
    (h : execVex f len vex reg (.reg r) s = .next t) :
    t.vec (regNumber4 (vexR vex) reg) = mulLanes f.lanes (s.vec (vexVNumber vex)) (s.vec (regNumber4 (vexB vex) r)) := by
  obtain ⟨-, -, src, hsrc, rfl⟩ := execVex_next.mp h
  obtain rfl := Except.ok.inj hsrc
  rw [advance_vec, setVec_vec_self]

/-- A VEX form with a memory operand. -/
theorem execVex_mem_vec {i : Instr} {f : Form} {vex : Vex} {reg : BitVec 3} {m : MemOperand} {s t : State}
    (h : execVex f i.len vex reg (.mem m) s = .next t) (hi : accessOfInstr i s = some (vexAccess f.lanes vex i.len s m)) :
    t.vec (regNumber4 (vexR vex) reg) =
      mulLanes f.lanes (s.vec (vexVNumber vex)) (s.memValue (addressOf i s) (8 * f.lanes)) := by
  obtain ⟨-, -, src, hsrc, rfl⟩ := execVex_next.mp h
  obtain ⟨-, rfl⟩ := Access.load_ok.mp hsrc
  rw [advance_vec, setVec_vec_self, addressOf_eq hi]
  rfl

/-- An EVEX form with a register operand and no writemask. -/
theorem execEvex_reg_vec {f : Form} {len : Nat} {e : Evex} {reg r : BitVec 3} {s t : State}
    (h : execEvex f len e reg (.reg r) s = .next t) (ha : e.aaa = 0#3) :
    t.vec (evexRegNumber e reg) = mulLanes f.lanes (s.vec (evexVNumber e)) (s.vec (evexRmNumber e r)) := by
  obtain ⟨-, -, -, src, hsrc, rfl⟩ := execEvex_next.mp h
  obtain rfl := Except.ok.inj hsrc
  rw [advance_vec, setVec_vec_self, evexResult_of_unmasked ha (Bool.and_false _)]

/-- An EVEX form with a full memory operand and no writemask. -/
theorem execEvex_mem_vec {i : Instr} {f : Form} {e : Evex} {reg : BitVec 3} {m : MemOperand} {s t : State}
    (h : execEvex f i.len e reg (.mem m) s = .next t) (hi : accessOfInstr i s = some (evexAccess f.lanes e i.len s m))
    (ha : e.aaa = 0#3) (hb : e.bcst = false) :
    t.vec (evexRegNumber e reg) =
      mulLanes f.lanes (s.vec (evexVNumber e)) (s.memValue (addressOf i s) (8 * f.lanes)) := by
  have hbytes : (evexAccess f.lanes e i.len s m).bytes = 8 * f.lanes := if_neg (Bool.eq_false_iff.mp hb)
  obtain ⟨-, -, -, src, hsrc, rfl⟩ := execEvex_next.mp h
  obtain ⟨-, rfl⟩ := Access.load_ok.mp hsrc
  rw [advance_vec, setVec_vec_self, evexResult_of_unmasked ha (by rw [hb, Bool.false_and]), addressOf_eq hi, hbytes]

end Sys2Proof.Machine
end

section
/-! PROOFS. 41_vpmuludq_vex.md: the results of the VEX forms, the bits above their vector length, and their agreement with the other
forms. -/

namespace Sys2Proof

open Sys2Proof.Machine

/-- Settles O27: both VEX forms complete on their register source. -/
theorem vexRegisterResults : Obligations.VexRegisterResults :=
  ⟨fun _ _ _ _ hready hfall => vexCompletes rfl hready hfall rfl,
    fun _ _ _ _ hready hfall => vexCompletes rfl hready hfall rfl⟩

/-- Settles O28: the read is permitted whatever its alignment, so both VEX forms complete on the bytes at their operand. -/
theorem vexMemoryResults : Obligations.VexMemoryResults :=
  ⟨fun _ _ _ _ hready hfall hreach => vexCompletes rfl hready hfall (vexSource_mem rfl hreach),
    fun _ _ _ _ hready hfall hreach => vexCompletes rfl hready hfall (vexSource_mem rfl hreach)⟩

/-- Settles O34: what a VEX form writes ends with its last product. -/
theorem vexFormsZeroUpperBits : Obligations.VexFormsZeroUpperBits :=
  ⟨fun _ _ _ _ _ _ h hn => execVex_above (f := .vexXmm) h hn, fun _ _ _ _ _ _ h hn => execVex_above (f := .vexYmm) h hn⟩

/-- Settles O41: each form leaves the same products of its sources' values, form 2 in the low 128 bits and the others in the whole
register. -/
theorem formsAgreeOnTheSameInputs : Obligations.FormsAgreeOnTheSameInputs := by
  refine ⟨?_, ?_, ?_, ?_, ?_, ?_⟩
  case refine_1 =>
    intro rex vex reg r s t t' h h' hv hR hB
    have hvex := execVex_reg_vec (f := .vexXmm) h'
    rw [hR, hB, hv] at hvex
    rw [hvex, execPmuludqXmm_reg_low h]
    rfl
  case refine_2 | refine_3 =>
    intro vex e reg r reg' r' s t t' h h' ha hv hrm
    rw [execEvex_reg_vec h' ha, execVex_reg_vec h, hv, hrm]
    rfl
  case refine_4 =>
    intro rex vex reg m m' s t t' h h' hv hR haddr
    have hvex := execVex_mem_vec (f := .vexXmm) h' rfl
    rw [hR, hv, haddr] at hvex
    rw [hvex, execPmuludqXmm_mem_low h]
    rfl
  case refine_5 | refine_6 =>
    intro vex e reg m reg' m' s t t' h h' ha hb hv haddr
    rw [execEvex_mem_vec h' rfl ha hb, execVex_mem_vec h rfl, hv, haddr]
    rfl

end Sys2Proof
end

section
/-! PROOFS. 42_vpmuludq_evex.md, the facts its statements share: what the three EVEX constructors have in common, the lanes of their
result, what an EVEX form completes with for any source that can be read, and what it does with the opmask registers. -/

namespace Sys2Proof.Machine

open Sys2Proof.Statements

/-! ## The three EVEX constructors -/

/-- What a statement about the three EVEX forms needs of a constructor and its form: it has the shared meaning, a memory operand asks
for the shared read, and its length does not depend on the EVEX fields. -/
structure IsEvexForm (mk : Evex → BitVec 3 → Rm → Instr) (f : Form) : Prop where
  exec_eq : ∀ e reg rm s, exec (mk e reg rm) s = execEvex f (mk e reg rm).len e reg rm s
  access_eq : ∀ e reg m s,
    accessOfInstr (mk e reg (.mem m)) s = some (evexAccess f.lanes e (mk e reg (.mem m)).len s m)
  len_eq : ∀ e e' reg rm, (mk e reg rm).len = (mk e' reg rm).len

/-- The three EVEX constructors are such. -/
theorem isEvexForm : ForEvexForms IsEvexForm :=
  ⟨⟨fun _ _ _ _ => rfl, fun _ _ _ _ => rfl, fun _ _ _ _ => rfl⟩,
    ⟨fun _ _ _ _ => rfl, fun _ _ _ _ => rfl, fun _ _ _ _ => rfl⟩,
    ⟨fun _ _ _ _ => rfl, fun _ _ _ _ => rfl, fun _ _ _ _ => rfl⟩⟩

/-- What holds of every such constructor holds of the three. -/
theorem forEvexForms_of_isEvexForm {P : (Evex → BitVec 3 → Rm → Instr) → Form → Prop}
    (h : ∀ mk f, IsEvexForm mk f → P mk f) : ForEvexForms P := by
  obtain ⟨hx, hy, hz⟩ := isEvexForm
  exact ⟨h _ _ hx, h _ _ hy, h _ _ hz⟩

/-! ## Lanes under a writemask (R150, R154, R156) -/

/-- A lane is computed without a writemask, or when its mask bit is set (R154). -/
theorem evexActive_iff {s : State} {e : Evex} {j : Nat} :
    evexActive s e j = true ↔ e.aaa = 0#3 ∨ (s.opmask e.aaa).getLsbD j = true := by
  simp [evexActive]

/-- A lane is not computed when there is a writemask and its mask bit is clear (R154). -/
theorem evexActive_eq_false_iff {s : State} {e : Evex} {j : Nat} :
    evexActive s e j = false ↔ e.aaa ≠ 0#3 ∧ (s.opmask e.aaa).getLsbD j = false := by
  simp [evexActive]

/-- A legal EVEX encoding broadcasts only from memory and zeroes only under a writemask (30_encoding.md R94 (h), (i)). -/
theorem evexIllegal_eq_false_iff {e : Evex} {rm : Rm} :
    evexIllegal e rm = false ↔ (e.bcst = true → Rm.isMemory rm = true) ∧ MaskingLegal e := by
  simp [evexIllegal, MaskingLegal]

/-- Packing reads only the fields it packs. -/
theorem pack_congr {w : Nat} {f g : Nat → BitVec w} : ∀ {n : Nat}, (∀ j, j < n → f j = g j) → pack w f n = pack w g n
  | 0, _ => rfl
  | n + 1, h => by
    have hlow : pack w f n = pack w g n := pack_congr fun j hj => h j (hj.trans n.lt_succ_self)
    rw [pack, pack, hlow, h n n.lt_succ_self]

/-- The result depends on which of its own lanes are computed, and on no other mask bit (R158). -/
theorem mulLanesMasked_congr {n : Nat} {active active' : Nat → Bool} (h : ∀ j, j < n → active' j = active j) (z : Bool)
    (old a : Vec) (b : Nat → Quad) : mulLanesMasked n active' z old a b = mulLanesMasked n active z old a b :=
  pack_congr fun j hj => by rw [h j hj]

/-- With every lane computed the result is the products, whatever the old value and EVEX.z. -/
theorem mulLanesMasked_of_all_active {n : Nat} {active : Nat → Bool} (h : ∀ j, j < n → active j = true) (z : Bool) (old a : Vec)
    (b : Nat → Quad) : mulLanesMasked n active z old a b = pack 64 (fun j => laneProduct (lane a j) (b j)) n :=
  pack_congr fun j hj => if_pos (h j hj)

/-- With no lane computed the result is the old lanes under merging, and zeros under zeroing. -/
theorem mulLanesMasked_of_none_active {n : Nat} {active : Nat → Bool} (h : ∀ j, j < n → active j = false) (z : Bool) (old a : Vec)
    (b : Nat → Quad) : mulLanesMasked n active z old a b = pack 64 (fun j => if z then 0 else lane old j) n :=
  pack_congr fun j hj => if_neg (Bool.eq_false_iff.mp (h j hj))

/-- Packing the lanes of a value keeps its bits below the last lane packed. -/
theorem pack_lane_getLsbD (x : Vec) {n i : Nat} (hn : n ≤ 8) :
    (pack 64 (lane x) n).getLsbD i = (decide (i < 64 * n) && x.getLsbD i) := by
  have hlane : (lane x (i / 64)).getLsbD (i % 64) = x.getLsbD i := by
    rw [lane_getLsbD, decide_eq_true (Nat.mod_lt i (by decide)), Bool.true_and, Nat.div_add_mod]
  rw [pack_getLsbD 64 _ (by decide) n i (by omega), hlane]

/-- Packing zeros gives zero. -/
theorem pack_zero {n : Nat} (hn : n ≤ 8) : pack 64 (fun _ => 0) n = 0 := by
  apply BitVec.eq_of_getLsbD_eq
  intro i _
  simp [pack_getLsbD 64 _ (by decide) n i (by omega)]

/-! ## The second source (R155; 20_memory.md R53, R59) -/

/-- Without broadcast the second factors are the lanes of the operand. -/
theorem evexSecond_of_full {e : Evex} (h : e.bcst = false) (rm : Rm) (src : Vec) : evexSecond e rm src = lane src := by
  funext j
  simp [evexSecond, h]

/-- With broadcast every second factor is the element in memory. -/
theorem evexSecond_of_broadcast {e : Evex} (h : e.bcst = true) (m : MemOperand) (src : Vec) :
    evexSecond e (.mem m) src = fun _ => lane src 0 := by
  funext j
  simp [evexSecond, h, Rm.isMemory]

/-- A read with no alignment rule whose bytes can be reached answers them. -/
theorem Access.load_of_reaches {i : Instr} {a : Access} {s : State} (hi : accessOfInstr i s = some a)
    (hany : a.alignment = .any) (hreach : Reaches i a.bytes s) : a.load s = .ok (s.memValue (addressOf i s) a.bytes) := by
  rw [Reaches, addressOf_eq hi] at hreach
  obtain ⟨hcanonical, hreadable⟩ := hreach
  rw [addressOf_eq hi]
  exact Access.load_of_permitted (Access.permitted_iff.mpr ⟨hcanonical, hreadable, by simp [hany], by simp [hany]⟩)

/-- The bytes of a full operand. -/
theorem evexBytes_of_full {e : Evex} (h : e.bcst = false) (lanes : Nat) : evexBytes lanes e = 8 * lanes := by
  simp [evexBytes, h]

/-- The bytes of a broadcast element. -/
theorem evexBytes_of_broadcast {e : Evex} (h : e.bcst = true) (lanes : Nat) : evexBytes lanes e = 8 := by
  simp [evexBytes, h]

/-- The source of an EVEX form in memory. -/
theorem IsEvexForm.source_mem {mk : Evex → BitVec 3 → Rm → Instr} {f : Form} (hmk : IsEvexForm mk f) {e : Evex} {reg : BitVec 3}
    {m : MemOperand} {s : State} {n : Nat} (hn : evexBytes f.lanes e = n) (hreach : Reaches (mk e reg (.mem m)) n s) :
    evexSource f.lanes e (mk e reg (.mem m)).len s (.mem m) = .ok (s.memValue (addressOf (mk e reg (.mem m)) s) n) := by
  subst hn
  exact Access.load_of_reaches (hmk.access_eq e reg m s) rfl hreach

/-! ## What an EVEX form completes with -/

/-- An EVEX form zeroes its destination from the vector length up, whatever its mask (R156). -/
theorem execEvex_above {f : Form} {len : Nat} {e : Evex} {reg : BitVec 3} {rm : Rm} {s t : State} {n : Nat}
    (h : execEvex f len e reg rm s = .next t) (hn : 64 * f.lanes ≤ n) :
    (t.vec (evexRegNumber e reg)).getLsbD n = false := by
  obtain ⟨-, -, -, src, -, rfl⟩ := execEvex_next.mp h
  rw [advance_vec, setVec_vec_self]
  exact mulLanesMasked_above _ _ _ _ _ (Form.lanes_le_eight f) hn

/-- An EVEX form completes lane by lane as its mask says, whichever way its second source is read. -/
theorem IsEvexForm.completes {mk : Evex → BitVec 3 → Rm → Instr} {f : Form} (hmk : IsEvexForm mk f) {e : Evex} {reg : BitVec 3}
    {rm : Rm} {s : State} {src : Vec} {b : Nat → Quad} (hready : s.ready f = true) (hlegal : evexIllegal e rm = false)
    (hfall : s.fallsThrough (mk e reg rm) = true) (hsrc : evexSource f.lanes e (mk e reg rm).len s rm = .ok src)
    (hb : evexSecond e rm src = b) : EvexCompletes (mk e reg rm) f e reg b s := by
  have hnext := (execEvex_next (reg := reg)).mpr ⟨hready, hlegal, of_decide_eq_true hfall, src, hsrc, rfl⟩
  refine ⟨_, (hmk.exec_eq e reg rm s).trans hnext, fun j hj => ?_, fun n hn => execEvex_above hnext hn, rfl,
    onlyVec_setVec_advance s _ _ _⟩
  rw [advance_vec, setVec_vec_self, evexResult, hb, lane_mulLanesMasked _ _ _ _ _ (Form.lanes_le_eight f) hj]
  refine ⟨fun hactive => ?_, fun ⟨hmask, hbit, hmerge⟩ => ?_, fun ⟨hmask, hbit, hzero⟩ => ?_⟩
  · rw [if_pos (evexActive_iff.mpr hactive), laneProduct_toNat]
  · simp [evexActive_eq_false_iff.mpr ⟨hmask, hbit⟩, hmerge]
  · simp [evexActive_eq_false_iff.mpr ⟨hmask, hbit⟩, hzero]

/-- A completed EVEX form none of whose lanes is computed leaves the old lanes, or zeros. -/
theorem execEvex_none_active {f : Form} {len : Nat} {e : Evex} {reg : BitVec 3} {rm : Rm} {s t : State}
    (h : execEvex f len e reg rm s = .next t) (hnone : ∀ j, j < f.lanes → evexActive s e j = false) :
    t.vec (evexRegNumber e reg) = pack 64 (fun j => if e.z then 0 else lane (s.vec (evexRegNumber e reg)) j) f.lanes := by
  obtain ⟨-, -, -, src, -, rfl⟩ := execEvex_next.mp h
  rw [advance_vec, setVec_vec_self, evexResult, mulLanesMasked_of_none_active hnone]

/-! ## The opmask registers (R154, R157, R158) -/

/-- Mapping the next state goes past the checks, which answer none. -/
theorem mapNext_gated (g : State → State) (f : Form) (illegal : Bool) (s : State) (k : Out) :
    mapNext g (gated f illegal s k) = gated f illegal s (mapNext g k) := by
  simp only [gated, apply_ite (mapNext g)]
  rfl

/-- Mapping the next state goes past the read of an operand. -/
theorem mapNext_withValue (g : State → State) (r : Except Fault Vec) (k : Vec → Out) :
    mapNext g (withValue r k) = withValue r fun v => mapNext g (k v) := by
  cases r with
  | ok v => rfl
  | error e => rfl

/-- Completing leaves the opmask registers and does not read them. -/
theorem mapNext_retire_withMasks (k : Vector Quad 8) (len : Nat) (s : State) :
    mapNext (·.withMasks k) (retire len s) = retire len (s.withMasks k) := by
  simp only [retire, apply_ite (mapNext _)]
  rfl

/-- Which bytes are canonical depends on the parameters alone. -/
theorem canonicalRange_congr {s t : State} (hcfg : t.cfg = s.cfg) (a n : Nat) : t.canonicalRange a n = s.canonicalRange a n := by
  induction n generalizing a with
  | zero => rfl
  | succ n ih => rw [State.canonicalRange, State.canonicalRange, ih, hcfg]

/-- Which bytes can be read depends on the regions and the privilege level alone. -/
theorem readableRange_congr {s t : State} (hregions : t.regions = s.regions) (hcpl : t.cpl = s.cpl) (a n : Nat) :
    t.readableRange a n = s.readableRange a n := by
  induction n generalizing a with
  | zero => rfl
  | succ n ih => rw [State.readableRange, State.readableRange, State.readableAt, State.readableAt, ih, hregions, hcpl]

/-- A read of memory does not depend on the opmask registers. -/
theorem Access.load_withMasks (a : Access) (s : State) (k : Vector Quad 8) : a.load (s.withMasks k) = a.load s := by
  have hfault : a.fault? (s.withMasks k) = a.fault? s := by
    have hcanonical := canonicalRange_congr (s := s) (t := s.withMasks k) rfl
    have hreadable := readableRange_congr (s := s) (t := s.withMasks k) rfl rfl
    rw [Access.fault?, Access.fault?, hcanonical, hreadable]
    rfl
  rw [Access.load, Access.load, hfault]
  rfl

/-- The second source of an EVEX form does not depend on the opmask registers. -/
theorem evexSource_withMasks (lanes : Nat) (e : Evex) (len : Nat) (s : State) (k : Vector Quad 8) (rm : Rm) :
    evexSource lanes e len (s.withMasks k) rm = evexSource lanes e len s rm := by
  cases rm with
  | reg r => rfl
  | mem m => exact Access.load_withMasks (evexAccess lanes e len s m) s k

/-- Two opmask files that agree on the bits a writemask uses compute the same lanes. -/
theorem evexActive_withMasks {s : State} {e : Evex} {k : Vector Quad 8} {j : Nat}
    (h : e.aaa ≠ 0#3 → (k[e.aaa.toNat]'e.aaa.isLt).getLsbD j = (s.opmask e.aaa).getLsbD j) :
    evexActive (s.withMasks k) e j = evexActive s e j := by
  by_cases ha : e.aaa = 0#3
  · rw [evexActive_iff.mpr (.inl ha), evexActive_iff.mpr (.inl ha)]
  · exact congrArg (e.aaa == 0#3 || ·) (h ha)

/-- An EVEX form reads nothing of the opmask registers but which of its lanes are computed. -/
theorem execEvex_withMasks {f : Form} {len : Nat} {e : Evex} {reg : BitVec 3} {rm : Rm} {s : State} {k : Vector Quad 8}
    (h : ∀ j, j < f.lanes → evexActive (s.withMasks k) e j = evexActive s e j) :
    execEvex f len e reg rm (s.withMasks k) = mapNext (·.withMasks k) (execEvex f len e reg rm s) := by
  have hresult : ∀ src, evexResult f.lanes e reg rm (s.withMasks k) src = evexResult f.lanes e reg rm s src :=
    fun src => mulLanesMasked_congr h _ _ _ _
  simp only [execEvex, mapNext_gated, mapNext_withValue, mapNext_retire_withMasks, hresult, evexSource_withMasks]
  rfl

/-- With every lane computed an EVEX form does what it does with neither writemask nor zeroing. -/
theorem execEvex_of_all_active {f : Form} {len : Nat} {e : Evex} {reg : BitVec 3} {rm : Rm} {s : State}
    (hall : ∀ j, j < f.lanes → evexActive s e j = true) (ha : e.aaa ≠ 0#3) :
    execEvex f len e reg rm s = execEvex f len { e with aaa := 0, z := false } reg rm s := by
  have hlegal : evexIllegal e rm = evexIllegal { e with aaa := 0, z := false } rm := by simp [evexIllegal, ha]
  have hresult : ∀ src, evexResult f.lanes e reg rm s src = evexResult f.lanes { e with aaa := 0, z := false } reg rm s src := by
    intro src
    rw [evexResult, evexResult, mulLanesMasked_of_all_active hall,
      mulLanesMasked_of_all_active fun j _ => evexActive_iff.mpr (.inl rfl)]
    rfl
  simp only [execEvex, hlegal, hresult]
  rfl

end Sys2Proof.Machine
end

section
/-! PROOFS. 42_vpmuludq_evex.md: the results of the EVEX forms under every writemask, the bits above their vector length, and the
opmask bits they read. -/

namespace Sys2Proof

open Sys2Proof.Machine

/-- Settles O29: an EVEX form completes on its register source, lane by lane. -/
theorem evexRegisterResults : Obligations.EvexRegisterResults :=
  forEvexForms_of_isEvexForm fun _ _ hmk _ _ _ _ hready hmask hfull hfall =>
    hmk.completes hready (evexIllegal_eq_false_iff.mpr ⟨by simp [hfull], hmask⟩) hfall rfl (evexSecond_of_full hfull _ _)

/-- Settles O30: the whole operand is read whatever the mask, and its lanes are the second factors. -/
theorem evexMemoryResults : Obligations.EvexMemoryResults :=
  forEvexForms_of_isEvexForm fun _ f hmk _ _ _ _ hready hmask hfull hfall hreach =>
    hmk.completes hready (evexIllegal_eq_false_iff.mpr ⟨fun _ => rfl, hmask⟩) hfall
      (hmk.source_mem (evexBytes_of_full hfull f.lanes) hreach) (evexSecond_of_full hfull _ _)

/-- Settles O31: only the 8-byte element is read, and it is the second factor of every lane. -/
theorem evexBroadcastResults : Obligations.EvexBroadcastResults :=
  forEvexForms_of_isEvexForm fun _ f hmk _ _ _ _ hready hmask hbcst hfall hreach =>
    hmk.completes hready (evexIllegal_eq_false_iff.mpr ⟨fun _ => rfl, hmask⟩) hfall
      (hmk.source_mem (evexBytes_of_broadcast hbcst f.lanes) hreach) (evexSecond_of_broadcast hbcst _ _)

/-- Settles O35: what an EVEX form writes ends with its last lane, for form 7 at MAXVL, which its readiness makes 512. -/
theorem evexFormsZeroUpperBits : Obligations.EvexFormsZeroUpperBits := by
  refine ⟨fun _ _ _ _ _ _ h hn => execEvex_above (f := .evexXmm) h hn,
    fun _ _ _ _ _ _ h hn => execEvex_above (f := .evexYmm) h hn, fun _ _ _ _ _ _ h hn => ?_⟩
  obtain ⟨hready, -⟩ := exec_next h
  exact execEvex_above (f := .evexZmm) h ((State.lanes_le_maxvl (f := .evexZmm) nofun hready).trans hn)

/-- Settles O36: the opmask registers enter an EVEX form only through the lanes its mask selects. -/
theorem onlyTheLowMaskBitsAreRead : Obligations.OnlyTheLowMaskBitsAreRead := by
  refine forEvexForms_of_isEvexForm fun mk f hmk e reg rm s k hagree => ?_
  rw [hmk.exec_eq, hmk.exec_eq, execEvex_withMasks fun j hj => evexActive_withMasks fun ha => hagree ha j hj]

/-- Settles O39: with every lane computed neither the old destination nor EVEX.z enters the result. -/
theorem allOnesMaskIsNoMask : Obligations.AllOnesMaskIsNoMask := by
  refine forEvexForms_of_isEvexForm fun mk f hmk e reg rm s hones ha => ?_
  rw [hmk.exec_eq, hmk.exec_eq, hmk.len_eq e { e with aaa := 0, z := false },
    execEvex_of_all_active (fun j hj => evexActive_iff.mpr (.inr (hones j hj))) ha]

/-- Settles O40: with no lane computed the destination is its old lanes packed again, or zeros packed. -/
theorem allZerosMaskKeepsOrClears : Obligations.AllZerosMaskKeepsOrClears := by
  refine forEvexForms_of_isEvexForm fun mk f hmk e reg rm s t ha hzeros h => ?_
  rw [hmk.exec_eq] at h
  have hvec := execEvex_none_active h fun j hj => evexActive_eq_false_iff.mpr ⟨ha, hzeros j hj⟩
  refine ⟨fun hmerge n => ?_, fun hzero => ?_⟩
  · simp only [hmerge, Bool.false_eq_true, if_false] at hvec
    rw [hvec, pack_lane_getLsbD _ (Form.lanes_le_eight f)]
  · simp only [hzero, if_true] at hvec
    rw [hvec, pack_zero (Form.lanes_le_eight f)]

end Sys2Proof
end

section
/-! PROOFS. 60_exceptions.md, the facts its statements share: which prefix bytes make an encoding invalid, which check stops an
instruction, which condition stops its operand's read, and what CR0.EM does not enter. -/

namespace Sys2Proof

/-! ## Prefix bytes that make an encoding invalid (R183, R192, R193) -/

/-- A REX byte is one from 40 to 4F (30_encoding.md R76). -/
theorem extractLsb'_high_eq_four_iff (p : Byte) : p.extractLsb' 4 4 = 4#4 ↔ 0x40 ≤ p.toNat ∧ p.toNat ≤ 0x4F := by
  rw [BitVec.toNat_eq, BitVec.extractLsb'_toNat, Nat.shiftRight_eq_div_pow, BitVec.toNat_ofNat]
  omega

/-- The prefix bytes that make a VEX encoding #UD: 66, F2, F3, F0 and REX. -/
theorem forbiddenBeforeVex_iff {p : Byte} : forbiddenBeforeVex p = true ↔
    p = 0x66 ∨ p = 0xF2 ∨ p = 0xF3 ∨ p = 0xF0 ∨ (0x40 ≤ p.toNat ∧ p.toNat ≤ 0x4F) := by
  simp [forbiddenBeforeVex, or_assoc, extractLsb'_high_eq_four_iff]

/-- They are prefix bytes. -/
theorem isPrefixByte_of_forbiddenBeforeVex {p : Byte} (h : forbiddenBeforeVex p = true) : isPrefixByte p = true := by
  simp only [forbiddenBeforeVex, Bool.or_eq_true] at h
  simp only [isPrefixByte, Bool.or_eq_true]
  tauto

/-- One of them before a VEX or EVEX encoding makes it invalid (30_encoding.md R94 (c)). -/
theorem decode_forbiddenBeforeVex {p : Byte} (hp : forbiddenBeforeVex p = true) {i : Instr} (hi : i.form.isVexOrEvex = true)
    (h : i.WellFormed = true) (rest : List Byte) : decode (p :: (encode i ++ rest)) = .invalid := by
  have hps : ∀ q ∈ [p], isPrefixByte q = true := List.forall_mem_singleton.mpr (isPrefixByte_of_forbiddenBeforeVex hp)
  exact (decode_vexOrEvex hps hi h rest).trans (by simp [afterPrefixes, hp])

/-- F0 among the prefix bytes of a legacy form, without F2 and F3, makes it invalid (30_encoding.md R94 (a)). -/
theorem legacyForm_lock {ps : List Byte} (hlock : 0xF0 ∈ ps) (hF2 : 0xF2 ∉ ps) (hF3 : 0xF3 ∉ ps) (reg : BitVec 3) (rm : Rm)
    (rest : List Byte) : legacyForm ps reg rm rest = .invalid := by
  unfold legacyForm
  rw [if_neg (by simpa using ⟨hF2, hF3⟩), if_pos (by simpa using hlock)]

/-- F0 before any instruction makes it invalid: a legacy form's own 66 and REX are neither F2 nor F3. -/
theorem decode_lock {i : Instr} (h : i.WellFormed = true) (rest : List Byte) :
    decode (0xF0 :: (encode i ++ rest)) = .invalid := by
  have hps : ∀ q ∈ [(0xF0 : Byte)], isPrefixByte q = true := List.forall_mem_singleton.mpr rfl
  have hF2 : ∀ rex, 0xF2 ∉ rexBytes rex := not_mem_rexBytes (by decide)
  have hF3 : ∀ rex, 0xF3 ∉ rexBytes rex := not_mem_rexBytes (by decide)
  cases i with
  | pmuludqMm rex reg rm =>
    exact (decode_pmuludqMm hps rex h rest).trans
      (legacyForm_lock (by simp) (by simpa using hF2 rex) (by simpa using hF3 rex) reg rm rest)
  | pmuludqXmm rex reg rm =>
    exact (decode_pmuludqXmm hps rex h rest).trans
      (legacyForm_lock (by simp) (by simpa using hF2 rex) (by simpa using hF3 rex) reg rm rest)
  | _ => exact decode_forbiddenBeforeVex (by decide) rfl h rest

end Sys2Proof

namespace Sys2Proof.Machine

open Sys2Proof.Statements

/-- A step on an invalid encoding is #UD. -/
theorem step_of_invalid {s : State} (hmode : s.mode64 = true) (hdecode : decode s.fetchWindow = .invalid) :
    step s = .fault (.invalidOpcode s.pc) := by
  have hfetch : fetch s = .error (raise .invalidOpcode s) := by simp [fetch, hmode, hdecode]
  rw [step, hfetch]
  rfl

/-! ## The causes of #UD (R184 to R186) -/

/-- A missing CPUID flag is a cause of #UD (R184). -/
theorem udCondition_of_missingFeature {f : Form} {s : State} (h : featureAvailable s.cfg f = false) (illegal : Bool) :
    udCondition f illegal s = true := by simp [udCondition, h]

/-- State the operating system has not enabled is a cause of #UD (R185). -/
theorem udCondition_of_osDisabled {f : Form} {s : State} (h : s.osEnabled f = false) (illegal : Bool) :
    udCondition f illegal s = true := by simp [udCondition, h]

/-- CR0.EM is a cause of #UD in a form that tests it (R186). -/
theorem udCondition_of_em {f : Form} {s : State} (hf : testsEm f = true) (h : s.em = true) (illegal : Bool) :
    udCondition f illegal s = true := by simp [udCondition, hf, h]

/-- The legacy forms test CR0.EM, the others do not (R186). -/
theorem testsEm_eq (f : Form) : testsEm f = !f.isVexOrEvex := by cases f <;> rfl

/-- XCR0[2:1] is two bits. -/
theorem avxStateEnabled_iff {s : State} :
    s.avxStateEnabled = true ↔ s.xcr0.getLsbD 1 = true ∧ s.xcr0.getLsbD 2 = true := by
  have hbits := extractLsb'_eq_append_iff s.xcr0 1 1#1 1#1
  simp only [extractLsb'_eq_one_iff] at hbits
  exact (beq_iff_eq.trans hbits).trans and_comm

/-- XCR0[7:5] is three bits. -/
theorem avx512StateEnabled_iff {s : State} :
    s.avx512StateEnabled = true ↔ s.xcr0.getLsbD 5 = true ∧ s.xcr0.getLsbD 6 = true ∧ s.xcr0.getLsbD 7 = true := by
  have hbits := (extractLsb'_eq_append_iff s.xcr0 5 (1#1 ++ 1#1) 1#1).trans
    (and_congr_left' (extractLsb'_eq_append_iff s.xcr0 6 1#1 1#1))
  simp only [extractLsb'_eq_one_iff] at hbits
  exact (beq_iff_eq.trans hbits).trans (by tauto)

/-- Forms 3 to 7 need CR4.OSXSAVE and the AVX state enabled (R185). -/
theorem osEnabled_vexOrEvex {s : State} {f : Form} (hf : f.isVexOrEvex = true) (h : s.osEnabled f = true) :
    s.osxsave = true ∧ s.avxStateEnabled = true := by
  cases f <;> simp_all [State.osEnabled, Form.isVexOrEvex]

/-- Forms 5 to 7 need the opmask and ZMM state enabled (R185). -/
theorem osEnabled_evex {s : State} {f : Form} (hf : f = .evexXmm ∨ f = .evexYmm ∨ f = .evexZmm) (h : s.osEnabled f = true) :
    s.avx512StateEnabled = true := by
  rcases hf with rfl | rfl | rfl <;> simp_all [State.osEnabled]

/-! ## The checks of an instruction (R195 (1) to (3)) -/

/-- A cause of #UD stops every instruction. -/
theorem exec_of_ud {i : Instr} {s : State} (hmode : s.mode64 = true) (hu : udCondition i.form (illegalEncoding i) s = true) :
    exec i s = .fault (.invalidOpcode s.pc) := by
  obtain ⟨k, hk, -⟩ := exec_shape i s
  rw [hk, gated_of_ud k hmode hu]

/-- A missing CPUID flag stops every instruction. -/
theorem exec_of_missingFeature {i : Instr} {s : State} (hmode : s.mode64 = true)
    (h : featureAvailable s.cfg i.form = false) : exec i s = .fault (.invalidOpcode s.pc) :=
  exec_of_ud hmode (udCondition_of_missingFeature h _)

/-- Disabled state stops every instruction. -/
theorem exec_of_osDisabled {i : Instr} {s : State} (hmode : s.mode64 = true) (h : ¬s.osEnabled i.form = true) :
    exec i s = .fault (.invalidOpcode s.pc) :=
  exec_of_ud hmode (udCondition_of_osDisabled (Bool.eq_false_iff.mpr h) _)

/-- A pending x87 exception stops the checks of a form that tests for it, after #UD and #NM. -/
theorem gated_of_x87 {f : Form} {illegal : Bool} {s : State} (k : Out) (hmode : s.mode64 = true)
    (hu : udCondition f illegal s = false) (ht : s.ts = false) (hf : testsX87 f = true) (hx : s.x87ExceptionPending = true) :
    gated f illegal s k = .fault (.x87Error s.pc) := by
  simp [gated, raise, hmode, hu, ht, hf, hx]

/-- Only form 1 tests for a pending x87 exception (R188). -/
theorem testsX87_iff {f : Form} : testsX87 f = true ↔ f = .mm := by cases f <;> simp [testsX87]

/-! ## The read of the operand (R189 to R191, R195 (4) to (6)) -/

/-- A misaligned operand of form 2 comes first. -/
theorem Access.fault?_of_misaligned16 {a : Access} {s : State} (h : a.misaligned16 = true) :
    a.fault? s = some (.generalProtection s.pc) := by simp [Access.fault?, h]

/-- Then a byte that is not canonical. -/
theorem Access.fault?_of_notCanonical {a : Access} {s : State} (h16 : a.misaligned16 = false)
    (h : s.canonicalRange a.addr.toNat a.bytes = false) : a.fault? s = some (a.segment.addressFault s.pc) := by
  simp [Access.fault?, h16, h]

/-- Then a byte that cannot be read. -/
theorem Access.fault?_of_unreadable {a : Access} {s : State} (h16 : a.misaligned16 = false)
    (hc : s.canonicalRange a.addr.toNat a.bytes = true) (h : s.readableRange a.addr.toNat a.bytes = false) :
    ∃ code address, a.fault? s = some (.pageFault s.pc code address) := by
  simp [Access.fault?, h16, hc, h]

/-- Last a misaligned operand of form 1, where alignment checking is on. -/
theorem Access.fault?_of_misaligned8 {a : Access} {s : State} (h16 : a.misaligned16 = false)
    (hc : s.canonicalRange a.addr.toNat a.bytes = true) (hr : s.readableRange a.addr.toNat a.bytes = true)
    (hon : s.alignmentCheckEnabled = true) (h : a.misaligned8 = true) : a.fault? s = some (.alignmentCheck s.pc) := by
  simp [Access.fault?, h16, hc, hr, hon, h]

/-- Past the checks, the fault of the operand's read is the instruction's. -/
theorem exec_of_operandFault {i : Instr} {s : State} {a : Access} {e : Fault} (hgate : PassesGate i s)
    (ha : accessOfInstr i s = some a) (h : a.fault? s = some e) : exec i s = .fault e := by
  obtain ⟨hready, hlegal⟩ := hgate
  obtain ⟨k, hk, -, hmem⟩ := exec_shape i s
  obtain ⟨g, hg, -⟩ := hmem a ha
  rw [hk, hlegal, gated_of_ready k hready, hg, Access.load_error.mpr h, withValue_error]

/-- A completed instruction's operand could be read. -/
theorem exec_next_operandPermitted {i : Instr} {s t : State} (h : exec i s = .next t) : operandPermitted i s = true := by
  obtain ⟨k, hk, -, hmem⟩ := exec_shape i s
  obtain ⟨-, -, hk'⟩ := gated_next.mp (hk ▸ h)
  cases ha : accessOfInstr i s with
  | none => simp [operandPermitted, ha]
  | some a =>
    obtain ⟨g, hg, -⟩ := hmem a ha
    obtain ⟨v, hload, -⟩ := withValue_next.mp (hg ▸ hk')
    obtain ⟨hfault, -⟩ := Access.load_ok.mp hload
    simpa [operandPermitted, ha] using Access.fault?_eq_none.mp hfault

/-- A register operand asks for no read. -/
theorem accessOfInstr_reg {i : Instr} {r : BitVec 3} (h : i.rm = .reg r) (s : State) : accessOfInstr i s = none := by
  simp [accessOfInstr, h]

/-- Only form 1's read has the alignment rule that alignment checking turns on (R190). -/
theorem form_eq_mm_of_checkedEight {i : Instr} {s : State} {a : Access} (ha : accessOfInstr i s = some a)
    (halign : a.alignment = .checkedEight) : i.form = .mm := by
  cases hrm : i.rm with
  | reg r => exact nomatch (accessOfInstr_reg hrm s).symm.trans ha
  | mem m =>
    cases i with
    | pmuludqMm => rfl
    | _ =>
      cases hrm
      cases ha
      exact nomatch halign

/-- A read never raises #MF. -/
theorem Access.fault?_ne_x87Error (a : Access) (s : State) (rip : Quad) : a.fault? s ≠ some (.x87Error rip) := by
  intro h
  rcases Access.fault?_cases h with ⟨-, he⟩ | ⟨-, he⟩ | ⟨-, code, address, he⟩ | ⟨-, -, he⟩
  · exact nomatch he
  · cases hseg : a.segment <;> rw [hseg] at he <;> exact nomatch he
  · exact nomatch he
  · exact nomatch he

/-- A read raises #AC only under the alignment rule of form 1. -/
theorem Access.checkedEight_of_alignmentCheck {a : Access} {s : State} {rip : Quad}
    (h : a.fault? s = some (.alignmentCheck rip)) : a.alignment = .checkedEight := by
  rcases Access.fault?_cases h with ⟨-, he⟩ | ⟨-, he⟩ | ⟨-, code, address, he⟩ | ⟨-, h8, -⟩
  · exact nomatch he
  · cases hseg : a.segment <;> rw [hseg] at he <;> exact nomatch he
  · exact nomatch he
  · simp only [Access.misaligned8, Bool.and_eq_true, beq_iff_eq] at h8
    exact h8.1

/-- `AlignmentCheckEnabled` is its three conditions (R190). -/
theorem alignmentCheckEnabled_iff {s : State} : s.alignmentCheckEnabled = true ↔
    s.cr0.getLsbD 18 = true ∧ s.rflags.getLsbD 18 = true ∧ s.cpl = 3#2 := by
  simp [State.alignmentCheckEnabled, State.am, State.ac, and_assoc]

/-! ## CR0.EM (R186) -/

/-- Setting CR0.EM leaves CR0.TS. -/
theorem withEm_ts (s : State) (b : Bool) : (s.withEm b).ts = s.ts := by
  cases b <;> simp [State.ts, State.withEm]

/-- Setting CR0.EM leaves CR0.AM. -/
theorem withEm_am (s : State) (b : Bool) : (s.withEm b).am = s.am := by
  cases b <;> simp [State.am, State.withEm]

/-- The checks of a form that does not test CR0.EM do not depend on it. -/
theorem gated_withEm {f : Form} (hf : testsEm f = false) (illegal : Bool) (s : State) (b : Bool) (k : Out) :
    gated f illegal (s.withEm b) k = gated f illegal s k := by
  have hud : udCondition f illegal (s.withEm b) = udCondition f illegal s := by
    simp only [udCondition, hf, Bool.false_and]
    rfl
  rw [gated, gated, hud, withEm_ts]
  rfl

/-- A read of memory does not depend on CR0.EM. -/
theorem Access.load_withEm (a : Access) (s : State) (b : Bool) : a.load (s.withEm b) = a.load s := by
  have hcanonical := canonicalRange_congr (s := s) (t := s.withEm b) rfl
  have hreadable := readableRange_congr (s := s) (t := s.withEm b) rfl rfl
  have hfault : a.fault? (s.withEm b) = a.fault? s := by
    rw [Access.fault?, Access.fault?, hcanonical, hreadable, State.alignmentCheckEnabled, withEm_am]
    rfl
  rw [Access.load, Access.load, hfault]
  rfl

/-- The second source of a VEX form does not depend on CR0.EM. -/
theorem vexSource_withEm (lanes : Nat) (vex : Vex) (len : Nat) (s : State) (b : Bool) (rm : Rm) :
    vexSource lanes vex len (s.withEm b) rm = vexSource lanes vex len s rm := by
  cases rm with
  | reg r => rfl
  | mem m => exact Access.load_withEm (vexAccess lanes vex len s m) s b

/-- The second source of an EVEX form does not depend on CR0.EM. -/
theorem evexSource_withEm (lanes : Nat) (e : Evex) (len : Nat) (s : State) (b : Bool) (rm : Rm) :
    evexSource lanes e len (s.withEm b) rm = evexSource lanes e len s rm := by
  cases rm with
  | reg r => rfl
  | mem m => exact Access.load_withEm (evexAccess lanes e len s m) s b

/-- Completing leaves CR0 and does not read it. -/
theorem mapNext_retire_withEm (b : Bool) (len : Nat) (s : State) :
    mapNext (·.withEm b) (retire len s) = retire len (s.withEm b) := by
  simp only [retire, apply_ite (mapNext _)]
  rfl

/-- A VEX form that does not test CR0.EM does the same whatever its value. -/
theorem execVex_withEm {f : Form} (hf : testsEm f = false) (len : Nat) (vex : Vex) (reg : BitVec 3) (rm : Rm) (s : State)
    (b : Bool) : execVex f len vex reg rm (s.withEm b) = mapNext (·.withEm b) (execVex f len vex reg rm s) := by
  simp only [execVex, mapNext_gated, mapNext_withValue, mapNext_retire_withEm, gated_withEm hf, vexSource_withEm]
  rfl

/-- An EVEX form that does not test CR0.EM does the same whatever its value. -/
theorem execEvex_withEm {f : Form} (hf : testsEm f = false) (len : Nat) (e : Evex) (reg : BitVec 3) (rm : Rm) (s : State)
    (b : Bool) : execEvex f len e reg rm (s.withEm b) = mapNext (·.withEm b) (execEvex f len e reg rm s) := by
  simp only [execEvex, mapNext_gated, mapNext_withValue, mapNext_retire_withEm, gated_withEm hf, evexSource_withEm]
  rfl

end Sys2Proof.Machine
end

section
/-! PROOFS. 60_exceptions.md: the encodings that raise #UD, the conditions on the state that stop a form, the faults of its operand,
and when it completes. -/

namespace Sys2Proof

open Sys2Proof.Machine

/-- Settles O8: F0 before an instruction decodes as invalid, and the fetch raises #UD for it. -/
theorem lockBeforeAnyFormRaisesUd : Obligations.LockBeforeAnyFormRaisesUd :=
  ⟨fun _ rest hwf => decode_lock hwf rest, fun _ => step_of_invalid⟩

/-- Settles O9: these are the bytes the decoder admits as prefixes and forbids before VEX and EVEX. -/
theorem prefixBeforeVexOrEvexIsInvalid : Obligations.PrefixBeforeVexOrEvexIsInvalid :=
  fun _ _ rest hwf hi hp => decode_forbiddenBeforeVex (forbiddenBeforeVex_iff.mpr hp) hi hwf rest

/-- Settles O32: each check that a form passes is a condition of its completing, and past them all it has only `pc` to move. -/
theorem formsCompleteExactlyWhen : Obligations.FormsCompleteExactlyWhen := by
  refine fun i s => ⟨fun ⟨t, h⟩ => ?_, fun ⟨hgate, hop, hfall⟩ => ?_⟩
  · obtain ⟨hready, hlegal, hlt, -⟩ := exec_next h
    exact ⟨⟨hready, hlegal⟩, exec_next_operandPermitted h, decide_eq_true hlt⟩
  · obtain ⟨u, hu, hpc⟩ := exec_eq_retire hgate hop
    exact ⟨_, hu.trans (retire_of_lt (hpc ▸ of_decide_eq_true hfall))⟩

/-- Settles O42: the flags of a form's row are those its check asks for. -/
theorem missingFeatureRaisesUd : Obligations.MissingFeatureRaisesUd := by
  refine fun s hmode => ⟨fun h rex reg rm => ⟨?_, ?_⟩, fun h vex reg rm => ?_, fun h vex reg rm => ?_,
    fun h e reg rm => ⟨?_, ?_⟩, fun h e reg rm => ?_⟩
  case refine_5 | refine_6 =>
    exact exec_of_missingFeature hmode (Bool.and_eq_false_iff.mpr h)
  all_goals exact exec_of_missingFeature hmode h

/-- Settles O43: an enabled form has every bit R185 asks of it set. -/
theorem disabledStateRaisesUd : Obligations.DisabledStateRaisesUd := by
  refine fun s hmode => ⟨fun h rex reg rm => ?_, fun h i hi => ?_, fun h e reg rm => ?_⟩
  · exact exec_of_osDisabled hmode (Bool.eq_false_iff.mp h)
  · refine exec_of_osDisabled hmode fun hon => ?_
    obtain ⟨h18, havx⟩ := osEnabled_vexOrEvex hi hon
    obtain ⟨h1, h2⟩ := avxStateEnabled_iff.mp havx
    rw [State.osxsave] at h18
    simp only [h18, h1, h2, reduceCtorEq, or_self] at h
  · have hoff : ∀ i : Instr, i.form = .evexXmm ∨ i.form = .evexYmm ∨ i.form = .evexZmm →
        exec i s = .fault (.invalidOpcode s.pc) := by
      refine fun i hi => exec_of_osDisabled hmode fun hon => ?_
      obtain ⟨h5, h6, h7⟩ := avx512StateEnabled_iff.mp (osEnabled_evex hi hon)
      simp only [h5, h6, h7, reduceCtorEq, or_self] at h
    exact ⟨hoff _ (.inl rfl), hoff _ (.inr (.inl rfl)), hoff _ (.inr (.inr rfl))⟩

/-- Settles O44: CR0.EM is a cause of #UD in the legacy forms, and no part of the others' meanings reads it. -/
theorem cr0EmStopsOnlyLegacyForms : Obligations.Cr0EmStopsOnlyLegacyForms := by
  refine ⟨fun i s hi hmode hem => exec_of_ud hmode (udCondition_of_em (by simp [testsEm_eq, hi]) hem _), fun i s b hi => ?_⟩
  cases i with
  | pmuludqMm => exact nomatch hi
  | pmuludqXmm => exact nomatch hi
  | vpmuludqVexXmm vex reg rm => exact execVex_withEm rfl _ vex reg rm s b
  | vpmuludqVexYmm vex reg rm => exact execVex_withEm rfl _ vex reg rm s b
  | vpmuludqEvexXmm e reg rm => exact execEvex_withEm rfl _ e reg rm s b
  | vpmuludqEvexYmm e reg rm => exact execEvex_withEm rfl _ e reg rm s b
  | vpmuludqEvexZmm e reg rm => exact execEvex_withEm rfl _ e reg rm s b

/-- Settles O45: the checks of every form test CR0.TS next after #UD. -/
theorem cr0TsRaisesNm : Obligations.Cr0TsRaisesNm := by
  intro i s hmode hu hts
  obtain ⟨k, hk, -⟩ := exec_shape i s
  rw [hk, gated_of_ts k hmode hu hts]

/-- Settles O46: the checks of form 1 test for a pending exception after #UD and #NM; no other form tests for it, and no read
raises #MF. -/
theorem pendingX87ExceptionStopsOnlyForm1 : Obligations.PendingX87ExceptionStopsOnlyForm1 := by
  refine ⟨fun rex reg rm s hmode hu hts hx => gated_of_x87 _ hmode hu hts rfl hx, fun i s rip hform h => ?_⟩
  rcases exec_fault h with ⟨-, he⟩ | ⟨-, he⟩ | ⟨htests, -⟩ | ⟨a, -, ha⟩
  · exact nomatch he
  · exact nomatch he
  · exact hform (testsX87_iff.mp htests)
  · exact Access.fault?_ne_x87Error a s rip ha

/-- Settles O48: misalignment is the first condition on form 2's read and the last on form 1's, and no other read has form 1's
alignment rule. -/
theorem alignmentFaults : Obligations.AlignmentFaults := by
  refine ⟨fun rex reg m s hready hmis => ?_, fun rex reg m s hready hreach ham hac hcpl hmis => ?_, fun i s rip hform h => ?_⟩
  · exact exec_of_operandFault ⟨hready, rfl⟩ rfl (Access.fault?_of_misaligned16 (bne_iff_ne.mpr hmis))
  · obtain ⟨hcanonical, hreadable⟩ := hreach
    exact exec_of_operandFault ⟨hready, rfl⟩ rfl (Access.fault?_of_misaligned8 rfl hcanonical hreadable
      (alignmentCheckEnabled_iff.mpr ⟨ham, hac, hcpl⟩) (bne_iff_ne.mpr hmis))
  · rcases exec_fault h with ⟨-, he⟩ | ⟨-, he⟩ | ⟨-, -, he⟩ | ⟨a, ha, hfault⟩
    · exact nomatch he
    · exact nomatch he
    · exact nomatch he
    · exact hform (form_eq_mm_of_checkedEight ha (Access.checkedEight_of_alignmentCheck hfault))

/-- Settles O49: past form 2's misalignment the address is the read's first condition, and its segment chooses the fault. -/
theorem nonCanonicalOperandFaults : Obligations.NonCanonicalOperandFaults := by
  intro i s a hgate ha h16 hc
  have hexec := exec_of_operandFault hgate ha (Access.fault?_of_notCanonical h16 hc)
  exact ⟨fun hseg => by rw [hexec, hseg]; rfl, fun hseg => by rw [hexec, hseg]; rfl⟩

/-- Settles O50: past misalignment and the address, the bytes are the read's next condition, and no writemask enters the read. -/
theorem unreadableOperandRaisesPf : Obligations.UnreadableOperandRaisesPf := by
  intro i s a hgate ha h16 hc hr
  obtain ⟨code, address, hfault⟩ := Access.fault?_of_unreadable h16 hc hr
  exact ⟨code, address, exec_of_operandFault hgate ha hfault⟩

/-- Settles O51: without a read only the checks can fault, and only form 1 tests for a pending x87 exception. -/
theorem registerOnlyFormsRaiseNoMemoryFault : Obligations.RegisterOnlyFormsRaiseNoMemoryFault := by
  intro i r s f hrm h
  rcases exec_fault h with ⟨-, he⟩ | ⟨-, he⟩ | ⟨htests, -, he⟩ | ⟨a, ha, -⟩
  · exact .inl he
  · exact .inr (.inl he)
  · exact .inr (.inr ⟨testsX87_iff.mp htests, he⟩)
  · exact nomatch (accessOfInstr_reg hrm s).symm.trans ha

end Sys2Proof
end
